-- ==== Sys2Proof/Word.lean ====
section
/-! DEFINITION. The widths the spec treats as bits: a byte (00_scope R11) and a header integer (20_memory R52). Every
other quantity of the spec is a natural number that never wraps (10_state R36) or a byte sequence (00_scope R12). -/

namespace Sys2Proof

/-- A byte: 8 bits, bit 7 the most significant (00_scope R11). -/
abbrev Byte := BitVec 8

/-- A header integer, unsigned (00_scope R9 SIZE_BITS, 20_memory R52). -/
abbrev U32 := BitVec 32

end Sys2Proof
end

