-- ==== Sys2Proof/Config.lean ====
section
/-! DEFINITION. The parameters of 00_scope R9: the fixed ones as constants, the decided and the open ones as fields of
`Config`. The spec leaves no result undefined, so there is no free value here. -/

namespace Sys2Proof

/-- WINDOW of 00_scope R9: the largest offset. -/
def window : Nat := 2048

/-- MIN_REF and MAX_REF of 00_scope R9. -/
def minRef : Nat := 3
/-- MAX_REF of 00_scope R9. -/
def maxRef : Nat := 18

/-- MIN_RLE of 00_scope R9. -/
def minRle : Nat := 4
/-- MAX_RLE of 00_scope R9. -/
def maxRle : Nat := 16387

/-- MIN_LIT of 00_scope R9. -/
def minLit : Nat := 1
/-- MAX_LIT of 00_scope R9. -/
def maxLit : Nat := 63

/-- KEY_LEN of 00_scope R9. -/
def keyLen : Nat := 3

/-- HEADER_SIZE of 00_scope R9: where the payload starts (20_memory R58). -/
def headerSize : Nat := 16

/-- ALIGN of 00_scope R9: the payload's length is padded to a multiple of it. -/
def align : Nat := 16

/-- The first value that no u32 header field can record (SIZE_BITS of 00_scope R9; 60_exceptions R234). -/
def sizeLimit : Nat := 4294967296

/-- MAGIC of 00_scope R9 and 20_memory R58. -/
def magic : List Byte := [0x4C#8, 0x5A#8, 0x50#8, 0x32#8, 0xAE#8, 0x47#8, 0x81#8, 0x3F#8]

/-- PAYLOAD_BOUND of 00_scope R9: what bounds the decoder's reads (42_stream_assembler R201). -/
inductive PayloadBound where
  | containerEnd
  | payloadSizeField
deriving DecidableEq, Repr

/-- The parameters that are fixed for one instance of the hardware and written by no command (10_state R40). -/
structure Config where
  /-- MAX_CANDIDATES: the cap of each index list (41_match_engine R156). -/
  maxCandidates : Nat
  /-- SEARCH_DEPTH: how many candidates are searched (41_match_engine R145). -/
  searchDepth : Nat
  /-- OVERLAP_MATCH: whether a match may run past the dictionary's end (41_match_engine R146). -/
  overlapMatch : Bool
  /-- PAYLOAD_BOUND (42_stream_assembler R201). -/
  payloadBound : PayloadBound
  /-- IN_CAPACITY, OPEN in the spec (20_memory R66): `none` is an instance that no input exceeds. -/
  inCapacity : Option Nat
  /-- OUT_CAPACITY, OPEN in the spec (20_memory R66): `none` is an instance that no output exceeds. -/
  outCapacity : Option Nat
deriving DecidableEq, Repr

/-- The decided values of 00_scope R9. DESIGN CHOICE (log entry 7, unsafe): the open capacities are unbounded here. -/
def Config.standard : Config :=
  { maxCandidates := 50, searchDepth := 50, overlapMatch := false, payloadBound := .containerEnd,
    inCapacity := none, outCapacity := none }

/-- The constraint 92_eei_decisions D8 and 93_implementation_defined IMP7 put on the search depth. -/
abbrev Config.WellFormed (k : Config) : Prop := 1 ≤ k.searchDepth ∧ k.searchDepth ≤ k.maxCandidates

end Sys2Proof
end

