-- ==== Sys2Proof/Syntax.lean ====
section
/-! DEFINITION. The instructions: the tokens of 30_encoding R70, one constructor per row of opcode_table.json. The same
type holds a token the decoder has read and a decision the match engine hands to the token encoder (41_match_engine
R140). Operands are the assembled ones of 30_encoding R74 to R76, without the encoding's biases. -/

namespace Sys2Proof

/-- A token, "a self-contained unit of the compressed stream". -/
inductive Instr where
  /-- LIT0: the first byte 0x00, a literal of count 0 (30_encoding R71, R80). -/
  | lit0
  /-- LIT: the raw bytes that follow the count (30_encoding R71, R74). -/
  | lit (bytes : List Byte)
  /-- RLE: how often a byte is repeated, and the byte (30_encoding R72, R75). -/
  | rle (count : Nat) (value : Byte)
  /-- REF: how many bytes are copied, and from how far back in the output (30_encoding R73, R76). -/
  | ref (length : Nat) (offset : Nat)
deriving DecidableEq, Repr

/-- A token's length in bytes (30_encoding R81). -/
def Instr.size : Instr → Nat
  | .lit0 => 1
  | .lit bytes => 1 + bytes.length
  | .rle _ _ => 3
  | .ref _ _ => 2

end Sys2Proof
end

