-- ==== Sys2Proof/WellFormed.lean ====
section
/-! DEFINITION. The operand ranges of the tokens: 30_encoding R71 (literal), R75 (RLE), R76 (reference). -/

namespace Sys2Proof

/-- The token's operands are ones an encoding exists for (30_encoding R83). -/
def Instr.wellFormed : Instr → Bool
  | .lit0 => true
  | .lit bytes => decide (minLit ≤ bytes.length) && decide (bytes.length ≤ maxLit)
  | .rle count _ => decide (minRle ≤ count) && decide (count ≤ maxRle)
  | .ref length offset =>
      decide (minRef ≤ length) && decide (length ≤ maxRef) && (decide (1 ≤ offset) && decide (offset ≤ window))

end Sys2Proof
end

