-- ==== Sys2Proof/Decode.lean ====
section
/-! DEFINITION. Tokens and bytes: the bit-field helper, the decoder of one token (30_encoding R71 to R81), the encoder
(30_encoding R77), and the byte layout behind the opcode table's bit numbers. -/

namespace Sys2Proof

/-- `b[hi:lo]` of 00_scope R11: the unsigned value of those bits. -/
def bits (hi lo : Nat) (b : Byte) : Nat := (b.toNat >>> lo) % 2 ^ (hi + 1 - lo)

/-- Why a byte sequence does not begin with a whole token: no first byte has no token (30_encoding R80). -/
inductive DecodeError where
  /-- There is no byte left. -/
  | exhausted
  /-- The first byte is there and a later byte of its token is not. -/
  | cutShort
deriving DecidableEq, Repr

/-- The length in bytes of the token whose first byte is `b0` (30_encoding R81). -/
def tokenSize (b0 : Byte) : Nat :=
  if bits 7 7 b0 = 1 then 2
  else if bits 6 6 b0 = 1 then 3
  else 1 + bits 5 0 b0

/-- The raw bytes of a literal of count `g` (30_encoding R71), which follow its first byte. -/
def decodeLit (g : Nat) (rest : List Byte) : Except DecodeError (Instr × List Byte) :=
  if rest.length < g then .error .cutShort else .ok (.lit (rest.take g), rest.drop g)

/-- The second and third byte of an RLE token (30_encoding R72) and its operands (R75). -/
def decodeRle (b0 : Byte) : List Byte → Except DecodeError (Instr × List Byte)
  | b1 :: b2 :: rest => .ok (.rle (((bits 5 0 b0 <<< 8) ||| b1.toNat) + 4) b2, rest)
  | _ => .error .cutShort

/-- The second byte of a reference token (30_encoding R73) and its operands (R76). -/
def decodeRef (b0 : Byte) : List Byte → Except DecodeError (Instr × List Byte)
  | b1 :: rest => .ok (.ref (bits 6 3 b0 + 3) (((bits 2 0 b0 <<< 8) ||| b1.toNat) + 1), rest)
  | [] => .error .cutShort

/-- The token at the front of a byte sequence, with the bytes after it: the dispatch of 30_encoding R78 in the order of
40_token_codec R100. -/
def decode : List Byte → Except DecodeError (Instr × List Byte)
  | [] => .error .exhausted
  | b0 :: rest =>
    if bits 7 7 b0 = 1 then decodeRef b0 rest
    else if bits 6 6 b0 = 1 then decodeRle b0 rest
    else if bits 5 0 b0 = 0 then .ok (.lit0, rest)
    else decodeLit (bits 5 0 b0) rest

/-- The bytes of a token: 30_encoding R77, and the byte 0x00 for LIT0 (30_encoding R71). -/
def encode : Instr → List Byte
  | .lit0 => [0x00#8]
  | .lit bytes => BitVec.ofNat 8 bytes.length :: bytes
  | .rle count value =>
      [BitVec.ofNat 8 (0x40 ||| (((count - 4) >>> 8) &&& 0x3F)), BitVec.ofNat 8 ((count - 4) &&& 0xFF), value]
  | .ref length offset =>
      [BitVec.ofNat 8 (0x80 ||| ((length - 3) <<< 3) ||| (((offset - 1) >>> 8) &&& 0x07)),
       BitVec.ofNat 8 ((offset - 1) &&& 0xFF)]

/-- The length of the longest token (30_encoding R70). -/
def longestToken : Nat := 64

/-- The bytes of an instruction whose bits the opcode table numbers from the least significant bit of its first byte:
the low `nbits` bits of `w`, first byte first, and zeros up to the longest token. -/
def tableBytes (nbits w : Nat) : List Byte :=
  (List.range longestToken).map fun k => BitVec.ofNat 8 ((w % 2 ^ nbits) >>> (8 * k))

/-- What the decoder reads from an instruction whose bits are `w`, numbered as the opcode table numbers them. -/
def decodeTableWord (nbits w : Nat) : Option Instr :=
  match decode (tableBytes nbits w) with
  | .ok (i, _) => some i
  | .error _ => none

end Sys2Proof
end

