-- ==== Sys2Proof/Machine/State.lean ====
section
/-! DEFINITION. The state of the machine (10_state R21 to R34) as plain data, the reasons a step stops, and the state
after power-on reset (10_state R44, 70_reset R260). -/

namespace Sys2Proof.Machine

/-- `mode` of 10_state R21. -/
inductive Mode where
  | idle
  | compressing
  | decompressing
deriving DecidableEq, Repr

/-- The error kinds of 60_exceptions R230. -/
inductive ErrorKind where
  /-- FormatError.BadMagic (60_exceptions R231). -/
  | badMagic
  /-- FormatError.Truncated (60_exceptions R232). -/
  | truncated
  /-- FormatError.InvalidOffset (60_exceptions R233). -/
  | invalidOffset
  /-- EncodeError.TooLarge (60_exceptions R234). -/
  | tooLarge
deriving DecidableEq, Repr

/-- `status` of 10_state R22; the number of an error is `ErrorKind.code` in Machine/Flags.lean. -/
inductive Status where
  | none
  | ok
  | err (e : ErrorKind)
deriving DecidableEq, Repr

/-- A host command with the byte sequence it carries (42_stream_assembler R190). -/
inductive Command where
  | compress (data : List Byte)
  | decompress (container : List Byte)
deriving DecidableEq, Repr

/-- A memory of 20_memory R50: a byte sequence indexed from 0. The position in the list is the address, so every
address below the length is listed once, in order, and an address at or past the length does not exist (00_scope R12);
a sequence has one such list, so equal memories are equal data (log entry 8). -/
abbrev Memory := List Byte

/-- `IDX` of 10_state R42: (key, list) pairs in one canonical form, keys strictly rising and no list empty; a key that
is not listed has the empty list (10_state R27; log entry 9). -/
abbrev Index := List (Nat × List Nat)

/-- Why the machine stops with no next state. Every constructor is a state the spec gives no outcome for. -/
inductive Fault where
  /-- The token encoder was handed operands out of range: raised by the meanings of Machine/Encoder.lean (40_token_codec
  R112, 60_exceptions R235). Safe: a run that reaches it proves nothing. -/
  | encoderParamRange
  /-- IN or OUT would exceed IN_CAPACITY or OUT_CAPACITY, where the spec leaves the machine stuck (20_memory R66):
  raised by the start of COMPRESS and by the tokens that append. Safe. -/
  | capacityExceeded
  /-- A read at an index at or past a sequence's length, which no rule does (00_scope R12, R13): raised by the fetch, by
  a reference's copy and by the engine in states that no run reaches. Safe. -/
  | noSuchByte
deriving DecidableEq, Repr

/-- Why the model gives a step no meaning. -/
inductive Refusal where
  /-- An instruction without a meaning yet: raised by exec's own arms alone. Safe. -/
  | notModelled (mnemonic : String)
  /-- The host presented a command while one was running, which has no meaning (70_reset R271): raised by step. Safe. -/
  | commandWhileBusy
deriving DecidableEq, Repr

/-- What the decoder finds when it needs a token (40_token_codec R100). -/
inductive Fetched where
  /-- `original_size` bytes exist (40_token_codec R101). -/
  | stop
  /-- The payload has no whole token here (40_token_codec R102, R104, R108, R110). -/
  | raised (e : ErrorKind)
  /-- The payload bound lies past the container, which no run reaches. -/
  | broken
  /-- The token at `rp`. -/
  | token (i : Instr)
deriving DecidableEq, Repr

/-- The state variables of 10_state R35, the tied-off parameters of 10_state R40, and the host's command port. -/
structure State where
  /-- The parameters of this instance; no step writes them (10_state R40). -/
  cfg : Config
  /-- The model's own field (log entry 1): the command the host is presenting. -/
  port : Option Command
  /-- `mode` (10_state R21). -/
  mode : Mode
  /-- `status` (10_state R22). -/
  status : Status
  /-- `result` (10_state R23). -/
  result : List Byte
  /-- `IN` (10_state R24); `N` is its length. -/
  inp : Memory
  /-- `pos` (10_state R25), the encoder's program counter (R37). -/
  pos : Nat
  /-- `DICT` (10_state R26). -/
  dict : Memory
  /-- `IDX` (10_state R27, R42). -/
  idx : Index
  /-- `TOK` (10_state R29). -/
  tok : Memory
  /-- `C` (10_state R30); `M` is its length. -/
  c : Memory
  /-- `rp` (10_state R31), the decoder's program counter (R38). -/
  rp : Nat
  /-- `OUT` (10_state R32). -/
  out : Memory
  /-- `orig` (10_state R33). -/
  orig : U32
  /-- `psize` (10_state R33). -/
  psize : U32
  /-- `end` (10_state R34). -/
  endp : Nat
deriving DecidableEq, Repr

/-- The state after power-on of an instance with the parameters `k`: mode, status and result as 10_state R44 says;
every variable the spec leaves undefined is empty or 0 (DESIGN CHOICE, log entry 4, unsafe). -/
def State.resetWith (k : Config) : State :=
  { cfg := k, port := none, mode := .idle, status := .none, result := [],
    inp := [], pos := 0, dict := [], idx := [], tok := [],
    c := [], rp := 0, out := [], orig := 0, psize := 0, endp := 0 }

/-- The state after power-on (10_state R44, 70_reset R260) of the instance with the values of 00_scope R9. -/
def State.reset : State := State.resetWith Config.standard

end Sys2Proof.Machine
end

