-- ==== Sys2Proof/Machine/Flags.lean ====
section
/-! DEFINITION. The hardware has no flags and no condition codes (10_state R39). Its one outcome indicator is `status`:
the numbers of its errors (60_exceptions R230) and the record the host reads (10_state R41). -/

namespace Sys2Proof.Machine

/-- The code of an error (60_exceptions R230). -/
def ErrorKind.code : ErrorKind → Nat
  | .badMagic => 1
  | .truncated => 2
  | .invalidOffset => 3
  | .tooLarge => 4

/-- The result record `(status, result)` of 10_state R41. -/
def State.record (s : State) : Status × List Byte := (s.status, s.result)

/-- The records that 10_state R41 calls legal, and the power-on value of R44. -/
def legalRecord : Status × List Byte → Bool
  | (.ok, _) => true
  | (.none, r) => r.isEmpty
  | (.err _, r) => r.isEmpty

end Sys2Proof.Machine
end

