-- ==== Sys2Proof/Machine/Ops.lean ====
section
/-! DEFINITION. The named operations over the machine's memories (20_memory), the candidate index (10_state R42) and the
end of a command: the one shared error entry (60_exceptions R238) and the successful end. There is no return from an
error (60_exceptions R239). -/

namespace Sys2Proof.Machine

/-! ### Byte sequences -/

/-- The byte at an index, none where the index does not exist (00_scope R12). -/
def Memory.read (m : Memory) (a : Nat) : Option Byte := m[a]?

/-- `MemRead(m, a, n)` of 00_scope R13, none where it is not defined. -/
def Memory.slice (m : Memory) (a n : Nat) : Option (List Byte) :=
  if a + n ≤ m.length then some ((m.drop a).take n) else none

/-- `Append(m, v)` of 00_scope R13. -/
def Memory.append (m : Memory) (v : Byte) : Memory := m ++ [v]

/-- A memory written as (address, byte) pairs. -/
def Memory.cells (m : Memory) : List Host.Cell := m.zipIdx.map fun e => (e.2, e.1)

/-- The canonical form of a memory: its addresses are 0, 1, … up to its length, each once (20_memory R50). -/
def Memory.wf (m : Memory) : Bool := decide ((Memory.cells m).map Prod.fst = List.range m.length)

/-- `le32(m, a)` of 00_scope R13. -/
def le32 (m : Memory) (a : Nat) : Option U32 :=
  match Memory.slice m a 4 with
  | some [b0, b1, b2, b3] =>
      some (b0.setWidth 32 ||| (b1.setWidth 32 <<< 8) ||| (b2.setWidth 32 <<< 16) ||| (b3.setWidth 32 <<< 24))
  | _ => none

/-- `put_le32(v)` of 00_scope R13. -/
def putLe32 (v : U32) : List Byte :=
  [v.setWidth 8, (v >>> 8).setWidth 8, (v >>> 16).setWidth 8, (v >>> 24).setWidth 8]

/-- The 16 header bytes (20_memory R58; `HDR` of 30_encoding R85). -/
def header (orig psize : U32) : List Byte := magic ++ putLe32 orig ++ putLe32 psize

/-- The zero bytes that pad a stream of `n` bytes (42_stream_assembler R194). -/
def padCount (n : Nat) : Nat := (align - n % align) % align

/-- `P` of 42_stream_assembler R194: the token stream with its zero padding. -/
def padded (tok : Memory) : List Byte := tok ++ List.replicate (padCount tok.length) 0x00#8

/-- A buffer of `n` bytes fits a capacity (20_memory R66); `none` is no bound. -/
def fits (capacity : Option Nat) (n : Nat) : Bool :=
  match capacity with
  | none => true
  | some k => decide (n ≤ k)

/-! ### The candidate index -/

/-- The list of a key, the empty list where the key has no entry (10_state R27). -/
def Index.lookup (k : Nat) : Index → List Nat
  | [] => []
  | (k', l) :: rest => if k = k' then l else Index.lookup k rest

/-- One entry in front of an index, none for an empty list. -/
def Index.entry (k : Nat) (l : List Nat) (rest : Index) : Index := if l.isEmpty then rest else (k, l) :: rest

/-- The index with the list of one key replaced, in the canonical form. -/
def Index.put (k : Nat) (l : List Nat) : Index → Index
  | [] => Index.entry k l []
  | (k', l') :: rest =>
    if k < k' then Index.entry k l ((k', l') :: rest)
    else if k = k' then Index.entry k l rest
    else (k', l') :: Index.put k l rest

/-- The cap of 41_match_engine R156: a list with more than `cap` entries loses its last one. -/
def capList (cap : Nat) (l : List Nat) : List Nat := if cap < l.length then l.dropLast else l

/-- Insertion of position `p` under key `k` (41_match_engine R155), then the cap (R156). -/
def Index.insert (cap k p : Nat) (x : Index) : Index := Index.put k (capList cap (p :: Index.lookup k x)) x

/-- Eviction (41_match_engine R157): every entry `e` with `len - e > WINDOW` goes, `len` being the dictionary's length. -/
def Index.evict (len : Nat) : Index → Index
  | [] => []
  | (k, l) :: rest => Index.entry k (l.filter fun e => decide (len - e ≤ window)) (Index.evict len rest)

/-- The canonical form of an index: keys of 24 bits strictly rising, no list empty. -/
def Index.wf (x : Index) : Bool :=
  decide ((x.map Prod.fst).Pairwise (· < ·)) && x.all fun e => decide (e.1 < 2 ^ 24) && !e.2.isEmpty

/-! ### The end of a command -/

/-- What the end of every command discards (70_reset R262, 60_exceptions R238): only `status` and `result` are held
between commands (60_exceptions R246; log entry 5). -/
def discard (s : State) : State :=
  { s with inp := [], pos := 0, dict := [], idx := [], tok := [],
           c := [], rp := 0, out := [], orig := 0, psize := 0, endp := 0 }

/-- The state after an error (60_exceptions R238): buffers discarded, result empty, status the error, mode IDLE. -/
def aborted (e : ErrorKind) (s : State) : State :=
  { discard s with mode := .idle, status := .err e, result := [] }

/-- `raise e` of 00_scope R14: the one error entry of the machine (42_stream_assembler R205, 60_exceptions R238). -/
def raise (e : ErrorKind) (s : State) : Host.Outcome State Fault Refusal := .next (aborted e s)

/-- The state after a successful command (42_stream_assembler R191, R196, R203). -/
def completed (r : List Byte) (s : State) : State :=
  { discard s with mode := .idle, status := .ok, result := r }

/-- A command ends successfully with the result `r`. -/
def complete (r : List Byte) (s : State) : Host.Outcome State Fault Refusal := .next (completed r s)

/-- Go on with `f` where an operation answers a next state. -/
def onNext (o : Host.Outcome State Fault Refusal) (f : State → Host.Outcome State Fault Refusal) :
    Host.Outcome State Fault Refusal :=
  match o with
  | .next s => f s
  | .fault r => .fault r
  | .refused r => .refused r

end Sys2Proof.Machine
end

