-- ==== Sys2Proof/Machine/Operands.lean ====
section
/-! DEFINITION. The operand forms: what the tokens append to a byte sequence (raw bytes, a run, a copy from the
sequence's own tail: 40_token_codec R104, R108, R110), and what the match engine reads of the input and of the index
(41_match_engine R143 to R149). -/

namespace Sys2Proof.Machine

/-! ### What a token appends -/

/-- A run of `count` copies of a byte (40_token_codec R108). -/
def appendRun (count : Nat) (v : Byte) (m : Memory) : Memory := m ++ List.replicate count v

/-- `n` bytes appended one at a time, each read at the next index after the append before it has landed (20_memory R64,
70_reset R264); none where a read is at an index that does not exist. -/
def copyFrom : (n src : Nat) → Memory → Option Memory
  | 0, _, m => some m
  | n + 1, src, m =>
    match Memory.read m src with
    | none => none
    | some b => copyFrom n (src + 1) (Memory.append m b)

/-- The bytes a token appends to the output so far, none where it has no meaning there (40_token_codec R115): the whole
effect of a token on a byte sequence, whatever the machine around it does. -/
def expand (i : Instr) (m : Memory) : Option Memory :=
  match i with
  | .lit0 => some m
  | .lit bytes => some (m ++ bytes)
  | .rle count value => some (appendRun count value m)
  | .ref length offset => if m.length < offset then none else copyFrom length (m.length - offset) m

/-- A stream of tokens expanded in order. -/
def expandAll : List Instr → Memory → Option Memory
  | [], m => some m
  | i :: is, m =>
    match expand i m with
    | none => none
    | some m' => expandAll is m'

/-! ### What the match engine reads -/

/-- `RleLen(q)` of 41_match_engine R143: the equal bytes that start at `q`, at most MAX_RLE (0 where `q` is no index). -/
def rleLen (inp : Memory) (q : Nat) : Nat :=
  match inp.drop q with
  | [] => 0
  | v :: rest => 1 + ((rest.take (maxRle - 1)).takeWhile fun b => b == v).length

/-- `Key(p)` of 41_match_engine R144, none where fewer than three bytes remain. -/
def key (inp : Memory) (p : Nat) : Option Nat :=
  match inp.drop p with
  | b0 :: b1 :: b2 :: _ => some ((b0.toNat <<< 16) ||| (b1.toNat <<< 8) ||| b2.toNat)
  | _ => none

/-- The entries of a list that lie in the window of position `q`, at most `depth` of them (41_match_engine R145). -/
def inWindow (depth q : Nat) (l : List Nat) : List Nat := (l.filter fun e => decide (q - e ≤ window)).take depth

/-- `Candidates(q)` of 41_match_engine R145. -/
def candidates (s : State) (q : Nat) : List Nat :=
  match key s.inp q with
  | none => []
  | some k => inWindow s.cfg.searchDepth q (Index.lookup k s.idx)

/-- `MatchCap(q, c)` of 41_match_engine R146. -/
def matchCap (overlap : Bool) (inp : Memory) (q e : Nat) : Nat :=
  if overlap then min maxRef (inp.length - q) else min maxRef (min (inp.length - q) (q - e))

/-- How many bytes two sequences have in common at their fronts. -/
def commonLen : List Byte → List Byte → Nat
  | a :: as, b :: bs => if a = b then commonLen as bs + 1 else 0
  | _, _ => 0

/-- `MatchLen(q, c)` of 41_match_engine R147. -/
def matchLen (overlap : Bool) (inp : Memory) (q e : Nat) : Nat :=
  commonLen ((inp.drop e).take (matchCap overlap inp q e)) (inp.drop q)

/-- The best match so far against one more candidate: replaced only by a strictly longer one (41_match_engine R148). -/
def better (overlap : Bool) (inp : Memory) (q : Nat) (best : Nat × Nat) (e : Nat) : Nat × Nat :=
  if best.1 < matchLen overlap inp q e then (matchLen overlap inp q e, q - e) else best

/-- `BestRef(q)` of 41_match_engine R148: length and offset, (0, 0) where no reference qualifies. -/
def bestRef (s : State) (q : Nat) : Nat × Nat :=
  if s.inp.length - q < keyLen then (0, 0)
  else
    let best := (candidates s q).foldl (better s.cfg.overlapMatch s.inp q) (0, 0)
    if minRef ≤ best.1 then best else (0, 0)

/-- `Qualifies(q)` of 41_match_engine R149. -/
def qualifies (s : State) (q : Nat) : Bool :=
  decide (minRle ≤ rleLen s.inp q) || decide (minRef ≤ (bestRef s q).1)

end Sys2Proof.Machine
end

