-- ==== Sys2Proof/Machine/Decoder.lean ====
section
/-! DEFINITION. token_codec_decoder (40_token_codec): the meaning of each token, and what the decoder's loop finds when
it needs the next one (R100). No token reads or writes a flag or transfers control. -/

namespace Sys2Proof.Machine

/-- OUT becomes `m` and `rp` passes the token's `n` bytes; an OUT past its capacity has no outcome (20_memory R66). -/
def putOut (m : Memory) (n : Nat) (s : State) : Host.Outcome State Fault Refusal :=
  if fits s.cfg.outCapacity m.length then .next { s with out := m, rp := s.rp + n } else .fault .capacityExceeded

/-- LIT0 (40_token_codec R106): nothing is appended. -/
def execLit0 (s : State) : Host.Outcome State Fault Refusal := .next { s with rp := s.rp + 1 }

/-- LIT (40_token_codec R104). -/
def execLit (bytes : List Byte) (s : State) : Host.Outcome State Fault Refusal :=
  if s.endp < s.rp + (1 + bytes.length) then raise .truncated s
  else putOut (s.out ++ bytes) (1 + bytes.length) s

/-- RLE (40_token_codec R108). -/
def execRle (count : Nat) (value : Byte) (s : State) : Host.Outcome State Fault Refusal :=
  if s.endp < s.rp + 3 then raise .truncated s
  else putOut (appendRun count value s.out) 3 s

/-- REF (40_token_codec R110). -/
def execRef (length offset : Nat) (s : State) : Host.Outcome State Fault Refusal :=
  if s.endp < s.rp + 2 then raise .truncated s
  else if s.out.length < offset then raise .invalidOffset s
  else
    match copyFrom length (s.out.length - offset) s.out with
    | none => .fault .noSuchByte
    | some m => putOut m 2 s

/-- What `DecodeStep` of 40_token_codec R100 finds: the stop rule (R101), the exhausted payload (R102), and then the
token whose bytes lie at `rp` before `end`; a token that is not all there is Truncated (R104, R108, R110). -/
def fetch (s : State) : Fetched :=
  if s.orig.toNat ≤ s.out.length then .stop
  else if s.endp ≤ s.rp then .raised .truncated
  else
    match Memory.slice s.c s.rp (s.endp - s.rp) with
    | none => .broken
    | some bs =>
      match decode bs with
      | .ok (i, _) => .token i
      | .error _ => .raised .truncated

end Sys2Proof.Machine
end

