-- ==== Sys2Proof/Machine/Encoder.lean ====
section
/-! DEFINITION. token_codec_encoder (40_token_codec): what each decision of the match engine appends to TOK. -/

namespace Sys2Proof.Machine

/-- The token's bytes at the end of TOK (40_token_codec R113). -/
def putTok (i : Instr) (s : State) : Host.Outcome State Fault Refusal := .next { s with tok := s.tok ++ encode i }

/-- LIT0 encode (40_token_codec R107): there is no such decision, and a literal of zero bytes is out of range. -/
def emitLit0 (_s : State) : Host.Outcome State Fault Refusal := .fault .encoderParamRange

/-- LIT encode (40_token_codec R105). -/
def emitLit (bytes : List Byte) (s : State) : Host.Outcome State Fault Refusal :=
  if (Instr.lit bytes).wellFormed then putTok (.lit bytes) s else .fault .encoderParamRange

/-- RLE encode (40_token_codec R109). -/
def emitRle (count : Nat) (value : Byte) (s : State) : Host.Outcome State Fault Refusal :=
  if (Instr.rle count value).wellFormed then putTok (.rle count value) s else .fault .encoderParamRange

/-- REF encode (40_token_codec R111). -/
def emitRef (length offset : Nat) (s : State) : Host.Outcome State Fault Refusal :=
  if (Instr.ref length offset).wellFormed then putTok (.ref length offset) s else .fault .encoderParamRange

/-- The token encoder (40_token_codec R105, R107, R109, R111, R112). -/
def emit (i : Instr) (s : State) : Host.Outcome State Fault Refusal :=
  match i with
  | .lit0 => emitLit0 s
  | .lit bytes => emitLit bytes s
  | .rle count value => emitRle count value s
  | .ref length offset => emitRef length offset s

end Sys2Proof.Machine
end

