-- ==== Sys2Proof/Machine/Engine.lean ====
section
/-! DEFINITION. lz77_match_engine (41_match_engine): one decision a step (R142), with the dictionary and the candidate
index kept as R154 to R158 say. -/

namespace Sys2Proof.Machine

/-- The index after position `p` has entered the dictionary: insertion where `p` has a key (41_match_engine R155, R156),
then eviction for the new dictionary length `p + 1` (R157). -/
def indexAppend (k : Config) (inp : Memory) (p : Nat) (x : Index) : Index :=
  match key inp p with
  | none => Index.evict (p + 1) x
  | some w => Index.evict (p + 1) (Index.insert k.maxCandidates w p x)

/-- `AppendDict(b)` of 41_match_engine R154. -/
def appendDict (b : Byte) (s : State) : State :=
  { s with dict := Memory.append s.dict b, idx := indexAppend s.cfg s.inp s.dict.length s.idx }

/-- `AppendRun(v, r)` of 41_match_engine R151: `r` calls of `AppendDict(v)`. -/
def appendDictRun (v : Byte) : Nat → State → State
  | 0, s => s
  | r + 1, s => appendDictRun v r (appendDict v s)

/-- `AppendCopy` of 41_match_engine R152 from index `src` of the dictionary: `n` calls of `AppendDict`, each byte read
after the append before it; none where a read is at an index that does not exist. -/
def appendDictCopy : (n src : Nat) → State → Option State
  | 0, _, s => some s
  | n + 1, src, s =>
    match Memory.read s.dict src with
    | none => none
    | some b => appendDictCopy n (src + 1) (appendDict b s)

/-- The loop of `GrowLiteral` (41_match_engine R153) with `fuel` bytes still allowed and `len` accepted: each accepted
byte is appended before the next lookahead (R158). No byte at `pos + len` is the end of the input. -/
def growLoop : (fuel len : Nat) → State → Nat × State
  | 0, len, s => (len, s)
  | fuel + 1, len, s =>
    match Memory.read s.inp (s.pos + len) with
    | none => (len, s)
    | some b => if qualifies s (s.pos + len) then (len, s) else growLoop fuel (len + 1) (appendDict b s)

/-- `GrowLiteral(pos)` of 41_match_engine R153, `v` being the byte at `pos`: the literal's length, at most MAX_LIT. -/
def growLiteral (v : Byte) (s : State) : Nat × State := growLoop (maxLit - 1) 1 (appendDict v s)

/-- `pos` passes the `n` input bytes a decision covers (41_match_engine R159). -/
def advance (n : Nat) (s : State) : State := { s with pos := s.pos + n }

/-- RLE decision (41_match_engine R151). -/
def decideRle (r : Nat) (v : Byte) (s : State) : Host.Outcome State Fault Refusal :=
  onNext (emit (.rle r v) s) fun s1 => .next (advance r (appendDictRun v r s1))

/-- Reference decision (41_match_engine R152). -/
def decideRef (bl bo : Nat) (s : State) : Host.Outcome State Fault Refusal :=
  onNext (emit (.ref bl bo) s) fun s1 =>
    match appendDictCopy bl (s1.pos - bo) s1 with
    | none => .fault .noSuchByte
    | some s2 => .next (advance bl s2)

/-- Literal decision (41_match_engine R153): the bytes are appended as the literal grows, then it is emitted. -/
def decideLit (v : Byte) (s : State) : Host.Outcome State Fault Refusal :=
  let g := growLiteral v s
  onNext (emit (.lit ((g.2.inp.drop g.2.pos).take g.1)) g.2) fun s1 => .next (advance g.1 s1)

/-- `EngineStep` of 41_match_engine R142 with the decision of R150; it needs a byte at `pos`. -/
def engineStep (s : State) : Host.Outcome State Fault Refusal :=
  match Memory.read s.inp s.pos with
  | none => .fault .noSuchByte
  | some v =>
    if minRle ≤ rleLen s.inp s.pos ∧ (bestRef s s.pos).1 ≤ rleLen s.inp s.pos then decideRle (rleLen s.inp s.pos) v s
    else if minRef ≤ (bestRef s s.pos).1 then decideRef (bestRef s s.pos).1 (bestRef s s.pos).2 s
    else decideLit v s

end Sys2Proof.Machine
end

