-- ==== Sys2Proof/Machine/Assembler.lean ====
section
/-! DEFINITION. lzp2_compressor_top (42_stream_assembler): the two host commands, each as the step that accepts it and
the step that ends it; between them run the engine's steps or the decoder's. -/

namespace Sys2Proof.Machine

/-- The start of COMPRESS: the values of 10_state R44, the size check of 42_stream_assembler R192, and an input past
IN_CAPACITY has no outcome (20_memory R66). -/
def startCompress (data : List Byte) (s : State) : Host.Outcome State Fault Refusal :=
  if sizeLimit ≤ data.length then
    raise .tooLarge { s with mode := .compressing, inp := data, pos := 0, dict := [], idx := [], tok := [] }
  else if fits s.cfg.inCapacity data.length then
    .next { s with mode := .compressing, inp := data, pos := 0, dict := [], idx := [], tok := [] }
  else .fault .capacityExceeded

/-- The container of a token stream for an input of `n` bytes (42_stream_assembler R196). -/
def container (n : Nat) (tok : Memory) : List Byte :=
  header (BitVec.ofNat 32 n) (BitVec.ofNat 32 (padded tok).length) ++ padded tok

/-- The end of COMPRESS: padding (42_stream_assembler R194), payload size check (R195), result (R196). -/
def finishCompress (s : State) : Host.Outcome State Fault Refusal :=
  if sizeLimit ≤ (padded s.tok).length then raise .tooLarge s
  else complete (container s.inp.length s.tok) s

/-- One step of a running COMPRESS: the engine runs while `pos < N` (41_match_engine R141). -/
def compressStep (s : State) : Host.Outcome State Fault Refusal :=
  if s.pos < s.inp.length then engineStep s else finishCompress s

/-- `end` of 42_stream_assembler R201 for a container of `m` bytes. -/
def payloadEnd (k : Config) (m : Nat) (psize : U32) : Nat :=
  match k.payloadBound with
  | .containerEnd => m
  | .payloadSizeField => min m (headerSize + psize.toNat)

/-- The start of DECOMPRESS: length check (42_stream_assembler R198), magic check (R199), header read (R200), payload
bound (R201), and the decoder's start (R202), in the order of 60_exceptions R237. -/
def startDecompress (data : List Byte) (s : State) : Host.Outcome State Fault Refusal :=
  if data.length < headerSize then raise .truncated { s with mode := .decompressing, c := data, out := [] }
  else if data.take 8 ≠ magic then raise .badMagic { s with mode := .decompressing, c := data, out := [] }
  else
    match le32 data 8, le32 data 12 with
    | some o, some p =>
      .next { s with mode := .decompressing, c := data, out := [], orig := o, psize := p,
                     endp := payloadEnd s.cfg data.length p, rp := headerSize }
    | _, _ => .fault .noSuchByte

/-- The end of DECOMPRESS (42_stream_assembler R203): exactly the first `orig` bytes. -/
def finishDecompress (s : State) : Host.Outcome State Fault Refusal := complete (s.out.take s.orig.toNat) s

/-- A command is accepted (42_stream_assembler R191). -/
def accept (cmd : Command) (s : State) : Host.Outcome State Fault Refusal :=
  match cmd with
  | .compress data => startCompress data s
  | .decompress data => startDecompress data s

end Sys2Proof.Machine
end

