-- ==== Sys2Proof/Machine/Dispatch.lean ====
section
/-! DEFINITION. The token's meaning in the decoder, one arm per constructor. -/

namespace Sys2Proof.Machine

def exec (i : Instr) (s : State) : Host.Outcome State Fault Refusal :=
  match i with
  | .lit0 => Sys2Proof.Machine.execLit0 s
  | .lit bytes => Sys2Proof.Machine.execLit bytes s
  | .rle count value => Sys2Proof.Machine.execRle count value s
  | .ref length offset => Sys2Proof.Machine.execRef length offset s

end Sys2Proof.Machine
end

