-- ==== Sys2Proof/Machine/Step.lean ====
section
/-! DEFINITION. One step of the machine, and the placing of one instruction where the next step fetches it. -/

namespace Sys2Proof.Machine

/-- `DecodeStep` of 40_token_codec R100. -/
def decodeStep (s : State) : Host.Outcome State Fault Refusal :=
  match fetch s with
  | .stop => finishDecompress s
  | .raised e => raise e s
  | .broken => .fault .noSuchByte
  | .token i => exec i s

/-- One step: an idle machine waits for a command (70_reset R260) and accepts the one presented (42_stream_assembler
R191); a running command makes one decision or one token (00_scope R8), or ends; a command presented meanwhile has no
meaning (70_reset R271). -/
def step (s : State) : Host.Outcome State Fault Refusal :=
  match s.port, s.mode with
  | none, .idle => .next s
  | some cmd, .idle => accept cmd { s with port := none }
  | some _, _ => .refused .commandWhileBusy
  | none, .compressing => compressStep s
  | none, .decompressing => decodeStep s

/-- The payload of the container that `withFetchWord` loads. -/
def fetchContainer (nbits w : Nat) : List Byte :=
  header 0xFFFFFFFF#32 (BitVec.ofNat 32 longestToken) ++ tableBytes nbits w

/-- `s` in a DECOMPRESS whose container's first token is the instruction with the bits `w`, at the decoder's first
token step (42_stream_assembler R202): the container, the header's fields and `rp` as an accepted command leaves them,
no command presented, and an output shorter than `orig` (log entry 3). -/
def State.withFetchWord (s : State) (nbits w : Nat) : State :=
  { s with port := none, mode := .decompressing, c := fetchContainer nbits w, rp := headerSize,
           endp := headerSize + longestToken, orig := 0xFFFFFFFF#32, psize := BitVec.ofNat 32 longestToken,
           out := if s.out.length < 4294967295 then s.out else [] }

end Sys2Proof.Machine
end

