-- ==== Sys2Proof/Safety.lean ====
section
/-! DEFINITION. The terms the claims use: runs of steps, what a command returns (70_reset R272), the invariants of a
running command (10_state R25 to R36, R45; 20_memory R51, R66), and the tokens a stream stands for (40_token_codec R117). -/

namespace Sys2Proof.Machine

/-- The next state of an outcome, none for a fault or a refusal. -/
def nextOf (o : Host.Outcome State Fault Refusal) : Option State :=
  match o with
  | .next s => some s
  | .fault _ => none
  | .refused _ => none

/-- The fault of an outcome, if it is one. -/
def faultOf (o : Host.Outcome State Fault Refusal) : Option Fault :=
  match o with
  | .next _ => none
  | .fault r => some r
  | .refused _ => none

/-- `k` steps, stopping at the first fault or refusal. -/
def run : Nat → State → Host.Outcome State Fault Refusal
  | 0, s => .next s
  | k + 1, s => onNext (step s) (run k)

/-- The command `cmd`, presented to the machine in `s`, is accepted, runs and has ended with the record `(st, r)`: mode
is IDLE again and no command is presented (70_reset R272). -/
def Returns (cmd : Command) (s : State) (st : Status) (r : List Byte) : Prop :=
  ∃ k t, run k { s with port := some cmd } = .next t ∧ t.mode = .idle ∧ t.port = none ∧ t.record = (st, r)

/-- The dictionary and index after the bytes `bs` are appended in order (41_match_engine R154). -/
def appendDictAll (bs : List Byte) (s : State) : State := bs.foldl (fun s b => appendDict b s) s

/-- What an index holds while the dictionary has `n` bytes (10_state R27, R42, 41_match_engine R157): the canonical
form, at most MAX_CANDIDATES positions a list, strictly decreasing, each in the dictionary and in the window, under the
key of its three bytes. -/
abbrev IndexInv (k : Config) (inp : Memory) (n : Nat) (x : Index) : Prop :=
  Index.wf x = true ∧
  ∀ e ∈ x, e.2.length ≤ k.maxCandidates ∧ e.2.Pairwise (fun a b => b < a) ∧
    ∀ p ∈ e.2, p < n ∧ n - p ≤ window ∧ key inp p = some e.1

/-- How many positions an index holds in all its lists (20_memory R66). -/
def Index.total (x : Index) : Nat := (x.map fun e => e.2.length).sum

/-- The positions before `q` with the key `k` that are in the window of `q`, most recent first: the content of the index
as a function of the input (41_match_engine R160). -/
def positions (inp : Memory) (k q : Nat) : List Nat :=
  (List.range q).reverse.filter fun p => decide (key inp p = some k) && decide (q - p ≤ window)

/-- Every list of the index is the MAX_CANDIDATES most recent positions of its key (41_match_engine R160). -/
def IndexExact (k : Config) (inp : Memory) (n : Nat) (x : Index) : Prop :=
  ∀ w, Index.lookup w x = (positions inp w n).take k.maxCandidates

/-- At an engine step's boundary: 10_state R24, R25, R45 and the index. -/
abbrev CompressInv (s : State) : Prop :=
  s.inp.length < sizeLimit ∧ fits s.cfg.inCapacity s.inp.length = true ∧ s.pos ≤ s.inp.length ∧
  s.dict = s.inp.take s.pos ∧ IndexInv s.cfg s.inp s.pos s.idx

/-- At a decoder step's boundary: the header read and checked (42_stream_assembler R198 to R201), `16 ≤ rp ≤ end`
(10_state R35, R36), and the bound of OUT (20_memory R51). -/
abbrev DecompressInv (s : State) : Prop :=
  headerSize ≤ s.c.length ∧ s.c.take 8 = magic ∧ le32 s.c 8 = some s.orig ∧ le32 s.c 12 = some s.psize ∧
  s.endp = payloadEnd s.cfg s.c.length s.psize ∧ headerSize ≤ s.rp ∧ s.rp ≤ s.endp ∧
  s.out.length < s.orig.toNat + maxRle ∧ fits s.cfg.outCapacity s.out.length = true

/-- Between commands only status and result are held (60_exceptions R246). -/
abbrev IdleInv (s : State) : Prop := discard s = s

/-- The machine's invariant: the record is a legal one (10_state R41), the mode's own invariant holds, and a DECOMPRESS
holds no index, that of the last COMPRESS being discarded (70_reset R262; log entry 5). -/
abbrev MachineInv (s : State) : Prop :=
  legalRecord s.record = true ∧ (s.mode = .idle → IdleInv s) ∧ (s.mode = .compressing → CompressInv s) ∧
  (s.mode = .decompressing → DecompressInv s ∧ s.idx = [])

/-- TOK is a stream of tokens, none of them LIT0, that stands for exactly the bytes of DICT (40_token_codec R107, R113,
R117). -/
def TokReplays (s : State) : Prop :=
  ∃ toks : List Instr, (∀ t ∈ toks, t.wellFormed = true ∧ t ≠ .lit0) ∧ s.tok = toks.flatMap encode ∧
    expandAll toks [] = some s.dict

end Sys2Proof.Machine
end

