-- ==== Sys2Proof/Certificates/Slice0/Obligations.lean ====
section
/-! DEFINITION. The statements for the provers, each from a numbered rule of spec/ (or, where the docstring says so,
from a decision or an inference the spec marks as its own). Where a statement gives an ended command's state whole, as
`aborted` or `completed`, what the discarded variables hold in it is the model's choice, log entry 5. -/

open Sys2Proof Sys2Proof.Machine

/-! ### Encoding -/

/-- The words of 95_test_vectors section 2 and of the examples of 40_token_codec R104, R106, R110 decode to the tokens
they stand for. -/
def Obligations.SpecWordsDecode : Prop :=
  decode [0x00#8, 0x02#8] = .ok (.lit0, [0x02#8]) ∧
  decode [0x03#8, 0x41#8, 0x42#8, 0x43#8] = .ok (.lit [0x41#8, 0x42#8, 0x43#8], []) ∧
  decode [0x53#8, 0x84#8, 0x41#8] = .ok (.rle 5000 0x41#8, []) ∧
  decode [0x98#8, 0x05#8] = .ok (.ref 6 6, []) ∧
  decode [0xB9#8, 0x2B#8] = .ok (.ref 10 300, []) ∧
  decode [0xFF#8, 0xFF#8] = .ok (.ref 18 2048, [])

/-- 30_encoding R78: the two high bits of the first byte select the token's kind, and 0x00 is LIT0. -/
def Obligations.FirstByteSelectsToken : Prop :=
  ∀ (b0 : Byte) (rest : List Byte) (i : Instr) (left : List Byte), decode (b0 :: rest) = .ok (i, left) →
    (b0.getLsbD 7 = true → ∃ l o, i = .ref l o) ∧
    (b0.getLsbD 7 = false → b0.getLsbD 6 = true → ∃ n v, i = .rle n v) ∧
    (b0.getLsbD 7 = false → b0.getLsbD 6 = false → b0 ≠ 0x00#8 → ∃ d, i = .lit d) ∧
    (b0 = 0x00#8 → i = .lit0)

/-- 30_encoding R74: a literal's count is the value of the six low bits, and that many raw bytes follow. -/
def Obligations.LitFieldsDecode : Prop :=
  ∀ (b0 : Byte) (rest : List Byte), 1 ≤ b0.toNat → b0.toNat ≤ 63 → b0.toNat ≤ rest.length →
    decode (b0 :: rest) = .ok (.lit (rest.take b0.toNat), rest.drop b0.toNat)

/-- 30_encoding R75: the RLE count and value, and the count's range. -/
def Obligations.RleFieldsDecode : Prop :=
  ∀ (b0 b1 v : Byte) (rest : List Byte), 0x40 ≤ b0.toNat → b0.toNat ≤ 0x7F →
    decode (b0 :: b1 :: v :: rest) = .ok (.rle ((b0.toNat % 64) * 256 + b1.toNat + 4) v, rest) ∧
    4 ≤ (b0.toNat % 64) * 256 + b1.toNat + 4 ∧ (b0.toNat % 64) * 256 + b1.toNat + 4 ≤ 16387

/-- 30_encoding R76: the reference's length and offset, and their ranges; the offset counts back from the end of the
output. -/
def Obligations.RefFieldsDecode : Prop :=
  (∀ (b0 b1 : Byte) (rest : List Byte), 0x80 ≤ b0.toNat →
    decode (b0 :: b1 :: rest) =
      .ok (.ref (b0.toNat / 8 % 16 + 3) ((b0.toNat % 8) * 256 + b1.toNat + 1), rest) ∧
    3 ≤ b0.toNat / 8 % 16 + 3 ∧ b0.toNat / 8 % 16 + 3 ≤ 18 ∧
    1 ≤ (b0.toNat % 8) * 256 + b1.toNat + 1 ∧ (b0.toNat % 8) * 256 + b1.toNat + 1 ≤ 2048) ∧
  (∀ (l o : Nat) (s t : State), 3 ≤ l → 1 ≤ o → o ≤ s.out.length → s.rp + 2 ≤ s.endp → exec (.ref l o) s = .next t →
    t.out[s.out.length]? = s.out[s.out.length - o]?)

/-- 30_encoding R77: the bytes of each decision, the fields written as quotients and remainders. -/
def Obligations.EncodeFields : Prop :=
  (∀ d : List Byte, 1 ≤ d.length → d.length ≤ 63 → encode (.lit d) = BitVec.ofNat 8 d.length :: d) ∧
  (∀ (n : Nat) (v : Byte), 4 ≤ n → n ≤ 16387 →
    encode (.rle n v) = [BitVec.ofNat 8 (64 + (n - 4) / 256), BitVec.ofNat 8 ((n - 4) % 256), v]) ∧
  (∀ l o : Nat, 3 ≤ l → l ≤ 18 → 1 ≤ o → o ≤ 2048 →
    encode (.ref l o) =
      [BitVec.ofNat 8 (128 + (l - 3) * 8 + (o - 1) / 256), BitVec.ofNat 8 ((o - 1) % 256)])

/-- The inference of 30_encoding section 5 that each token has one encoding, first half: decoding an encoded token gives
it back and leaves the bytes after it. -/
def Obligations.DecodeAfterEncode : Prop :=
  ∀ (i : Instr) (rest : List Byte), i.wellFormed = true → decode (encode i ++ rest) = .ok (i, rest)

/-- The same inference, second half: whatever decodes is the encoding of what it decodes to, and that is in range. -/
def Obligations.EncodeAfterDecode : Prop :=
  ∀ (bs : List Byte) (i : Instr) (rest : List Byte), decode bs = .ok (i, rest) →
    i.wellFormed = true ∧ encode i ++ rest = bs

/-- The inference of 30_encoding section 5 that the first byte alone fixes a token's length, and of 40_token_codec
section 1 that no first byte is an error: a token decodes exactly when all its bytes are there. -/
def Obligations.FirstByteFixesLength : Prop :=
  ∀ (b0 : Byte) (rest : List Byte),
    (rest.length + 1 < tokenSize b0 → decode (b0 :: rest) = .error .cutShort) ∧
    (tokenSize b0 ≤ rest.length + 1 →
      ∃ i, decode (b0 :: rest) = .ok (i, (b0 :: rest).drop (tokenSize b0)) ∧ i.size = tokenSize b0)

/-! ### The tokens' meanings -/

/-- LIT0 completes everywhere: `rp` passes one byte and nothing else changes. It rests on decision D3 of the spec
(40_token_codec section 3). -/
def Obligations.Lit0Completes : Prop :=
  ∀ s : State, exec .lit0 s = .next { s with rp := s.rp + 1 }

/-- LIT (40_token_codec section 2): its effect when its bytes lie before `end` and OUT has room, its error when they do
not (what the discarded variables then hold: log entry 5). -/
def Obligations.LitCompletes : Prop :=
  ∀ (d : List Byte) (s : State),
    (s.rp + 1 + d.length ≤ s.endp → fits s.cfg.outCapacity (s.out.length + d.length) = true →
      exec (.lit d) s = .next { s with out := s.out ++ d, rp := s.rp + (1 + d.length) }) ∧
    (s.endp < s.rp + 1 + d.length → exec (.lit d) s = .next (aborted .truncated s))

/-- RLE (40_token_codec section 4): its effect and its error (what the discarded variables then hold: log entry 5). -/
def Obligations.RleCompletes : Prop :=
  ∀ (n : Nat) (v : Byte) (s : State),
    (s.rp + 3 ≤ s.endp → fits s.cfg.outCapacity (s.out.length + n) = true →
      exec (.rle n v) s = .next { s with out := s.out ++ List.replicate n v, rp := s.rp + 3 }) ∧
    (s.endp < s.rp + 3 → exec (.rle n v) s = .next (aborted .truncated s))

/-- REF (20_memory R64): `length` bytes are appended, each equal to the byte `offset` places before it in the output,
whether that byte was there or was appended by the same copy; nothing else changes but `rp`. That OUT has room is
decision D13. -/
def Obligations.RefCompletes : Prop :=
  ∀ (l o : Nat) (s : State), 1 ≤ o → o ≤ s.out.length → s.rp + 2 ≤ s.endp →
    fits s.cfg.outCapacity (s.out.length + l) = true →
    ∃ ext : List Byte, ext.length = l ∧
      (∀ i, i < l → (s.out ++ ext)[s.out.length + i]? = (s.out ++ ext)[s.out.length - o + i]?) ∧
      exec (.ref l o) s = .next { s with out := s.out ++ ext, rp := s.rp + 2 }

/-- The order of REF's checks (decision D17, 60_exceptions section 3): a missing second byte first, then the offset. What
the discarded variables hold after either is log entry 5. -/
def Obligations.RefErrorOrder : Prop :=
  ∀ (l o : Nat) (s : State),
    (s.endp < s.rp + 2 → exec (.ref l o) s = .next (aborted .truncated s)) ∧
    (s.rp + 2 ≤ s.endp → s.out.length < o → exec (.ref l o) s = .next (aborted .invalidOffset s))

/-- The frame of every token: it ends the command with Truncated or InvalidOffset, or it changes only OUT, by appending,
and `rp`, by the token's length. What the discarded variables hold after an error is log entry 5. -/
def Obligations.TokenFrame : Prop :=
  ∀ (i : Instr) (s t : State), exec i s = .next t →
    t = aborted .truncated s ∨ t = aborted .invalidOffset s ∨
    ∃ ext : List Byte, t = { s with out := s.out ++ ext, rp := s.rp + i.size } ∧ expand i s.out = some (s.out ++ ext)

/-! ### The decoder's loop -/

/-- A decoder step runs the token decoded from the bytes at `rp`, and nothing around it. -/
def Obligations.StepRunsDecodedToken : Prop :=
  ∀ (s : State) (i : Instr) (rest : List Byte), s.port = none → s.mode = .decompressing →
    s.out.length < s.orig.toNat → s.rp < s.endp → s.endp ≤ s.c.length →
    decode ((s.c.take s.endp).drop s.rp) = .ok (i, rest) → step s = exec i s

/-- A decoder step at a first byte `g` of 1 to 63, as 40_token_codec section 2 has it, where OUT has room (decision D13).
After Truncated (60_exceptions section 4) the discarded variables are empty or 0, which is the model's choice, log
entry 5. -/
def Obligations.StepDecodesLit : Prop :=
  ∀ (s : State) (b0 : Byte), s.port = none → s.mode = .decompressing →
    s.out.length < s.orig.toNat → s.rp < s.endp → s.endp ≤ s.c.length → s.c[s.rp]? = some b0 →
    1 ≤ b0.toNat → b0.toNat ≤ 63 →
    (s.endp < s.rp + 1 + b0.toNat → step s = .next (aborted .truncated s)) ∧
    (s.rp + 1 + b0.toNat ≤ s.endp → fits s.cfg.outCapacity (s.out.length + b0.toNat) = true →
      step s = .next { s with out := s.out ++ (s.c.drop (s.rp + 1)).take b0.toNat, rp := s.rp + 1 + b0.toNat })

/-- A decoder step at a first byte of 0x40 to 0x7F, as 40_token_codec section 4 has it, where OUT has room (decision D13).
After Truncated (60_exceptions section 4) the discarded variables are empty or 0, which is the model's choice, log
entry 5. -/
def Obligations.StepDecodesRle : Prop :=
  ∀ (s : State) (b0 : Byte), s.port = none → s.mode = .decompressing →
    s.out.length < s.orig.toNat → s.rp < s.endp → s.endp ≤ s.c.length → s.c[s.rp]? = some b0 →
    0x40 ≤ b0.toNat → b0.toNat ≤ 0x7F →
    (s.endp < s.rp + 3 → step s = .next (aborted .truncated s)) ∧
    (∀ b1 v : Byte, s.rp + 3 ≤ s.endp → s.c[s.rp + 1]? = some b1 → s.c[s.rp + 2]? = some v →
      fits s.cfg.outCapacity (s.out.length + ((b0.toNat % 64) * 256 + b1.toNat + 4)) = true →
      step s = .next { s with out := s.out ++ List.replicate ((b0.toNat % 64) * 256 + b1.toNat + 4) v,
                              rp := s.rp + 3 })

/-- A decoder step at a first byte of 0x80 to 0xFF, as 40_token_codec section 5 has it, where OUT has room (decision D13).
After Truncated or InvalidOffset (60_exceptions section 4) the discarded variables are empty or 0, which is the model's
choice, log entry 5. -/
def Obligations.StepDecodesRef : Prop :=
  ∀ (s : State) (b0 : Byte), s.port = none → s.mode = .decompressing →
    s.out.length < s.orig.toNat → s.rp < s.endp → s.endp ≤ s.c.length → s.c[s.rp]? = some b0 →
    0x80 ≤ b0.toNat →
    (s.endp < s.rp + 2 → step s = .next (aborted .truncated s)) ∧
    (∀ b1 : Byte, s.rp + 2 ≤ s.endp → s.c[s.rp + 1]? = some b1 →
      s.out.length < (b0.toNat % 8) * 256 + b1.toNat + 1 → step s = .next (aborted .invalidOffset s)) ∧
    (∀ b1 : Byte, s.rp + 2 ≤ s.endp → s.c[s.rp + 1]? = some b1 →
      (b0.toNat % 8) * 256 + b1.toNat + 1 ≤ s.out.length →
      fits s.cfg.outCapacity (s.out.length + (b0.toNat / 8 % 16 + 3)) = true →
      ∃ ext : List Byte, ext.length = b0.toNat / 8 % 16 + 3 ∧
        (∀ i, i < ext.length → (s.out ++ ext)[s.out.length + i]? =
          (s.out ++ ext)[s.out.length - ((b0.toNat % 8) * 256 + b1.toNat + 1) + i]?) ∧
        step s = .next { s with out := s.out ++ ext, rp := s.rp + 2 })

/-- A decoder step at the byte 0x00 passes it and appends nothing (decision D3, 40_token_codec section 3). -/
def Obligations.StepDecodesLit0 : Prop :=
  ∀ s : State, s.port = none → s.mode = .decompressing →
    s.out.length < s.orig.toNat → s.rp < s.endp → s.endp ≤ s.c.length → s.c[s.rp]? = some 0x00#8 →
    step s = .next { s with rp := s.rp + 1 }

/-- The stop rule (40_token_codec section 1, 42_stream_assembler section 3): once `orig` bytes exist the decoder stops,
whatever the payload holds, and the result is exactly the first `orig` bytes. The discarded variables are then empty or
0, which is the model's choice, log entry 5. -/
def Obligations.StopRule : Prop :=
  ∀ s : State, s.port = none → s.mode = .decompressing → s.orig.toNat ≤ s.out.length →
    step s = .next (completed (s.out.take s.orig.toNat) s)

/-- An exhausted payload before `orig` bytes exist is Truncated (decision D4, 40_token_codec section 1). What the discarded
variables then hold is log entry 5. -/
def Obligations.ExhaustedPayload : Prop :=
  ∀ s : State, s.port = none → s.mode = .decompressing → s.out.length < s.orig.toNat → s.endp ≤ s.rp →
    step s = .next (aborted .truncated s)

/-- What an error leaves (60_exceptions section 4): an empty result, the error as status, mode IDLE and the buffers
discarded. That a discarded OUT, DICT, IDX or TOK is then empty is the model's choice (log entry 5), and the port that
stands is the model's own field (log entry 1). -/
def Obligations.ErrorAborts : Prop :=
  ∀ (e : ErrorKind) (s : State), ∃ t, raise e s = .next t ∧
    t.out = [] ∧ t.dict = [] ∧ t.idx = [] ∧ t.tok = [] ∧ t.result = [] ∧ t.status = .err e ∧ t.mode = .idle ∧
    t.cfg = s.cfg ∧ t.port = s.port

/-! ### The top block -/

/-- Every command starts from a fresh state (70_reset section 1, 10_state section 10 with decision D19), with `end` as
decision D5 says for each PAYLOAD_BOUND. That IN has room is decision D13; the port is log entry 1, and one step that
accepts a command with all its checks is log entry 2. -/
def Obligations.CommandsStartFresh : Prop :=
  (∀ (s : State) (d : List Byte), s.mode = .idle → s.port = some (.compress d) → d.length < 2 ^ 32 →
    fits s.cfg.inCapacity d.length = true →
    step s = .next { s with port := none, mode := .compressing, inp := d, pos := 0, dict := [], idx := [], tok := [] }) ∧
  (∀ (s : State) (d : List Byte), s.mode = .idle → s.port = some (.decompress d) → 16 ≤ d.length →
    d.take 8 = magic →
    ∃ t, step s = .next t ∧ t.mode = .decompressing ∧ t.c = d ∧ t.out = [] ∧ t.rp = 16 ∧
      le32 d 8 = some t.orig ∧ le32 d 12 = some t.psize ∧
      (s.cfg.payloadBound = .containerEnd → t.endp = d.length) ∧
      (s.cfg.payloadBound = .payloadSizeField → t.endp = min d.length (16 + t.psize.toNat)) ∧
      t.port = none ∧ t.status = s.status ∧ t.result = s.result)

/-- 42_stream_assembler R199 and 60_exceptions R231: a container of at least 16 bytes without the magic. -/
def Obligations.MagicMismatch : Prop :=
  ∀ (s : State) (d : List Byte), s.mode = .idle → s.port = some (.decompress d) → 16 ≤ d.length →
    d.take 8 ≠ [0x4C#8, 0x5A#8, 0x50#8, 0x32#8, 0xAE#8, 0x47#8, 0x81#8, 0x3F#8] →
    ∃ t, step s = .next t ∧ t.record = (.err .badMagic, []) ∧ t.mode = .idle

/-- The two checks the spec decides itself: a container under 16 bytes is Truncated (decision D6, 42_stream_assembler
section 3), and an input of 2^32 bytes or more is TooLarge (decision D13, section 2); and the numbers of the four errors
(decision D14, 60_exceptions section 1). -/
def Obligations.SizeChecks : Prop :=
  (∀ (s : State) (d : List Byte), s.mode = .idle → s.port = some (.decompress d) → d.length < 16 →
    ∃ t, step s = .next t ∧ t.record = (.err .truncated, []) ∧ t.mode = .idle) ∧
  (∀ (s : State) (d : List Byte), s.mode = .idle → s.port = some (.compress d) → 2 ^ 32 ≤ d.length →
    ∃ t, step s = .next t ∧ t.record = (.err .tooLarge, []) ∧ t.mode = .idle) ∧
  ErrorKind.code .badMagic = 1 ∧ ErrorKind.code .truncated = 2 ∧ ErrorKind.code .invalidOffset = 3 ∧
  ErrorKind.code .tooLarge = 4

/-- 20_memory R52: the header's integers are little-endian, and what is written is what is read; DECOMPRESS reads them
at 8 and 12, COMPRESS writes the input's and the padded stream's length there. -/
def Obligations.HeaderLittleEndian : Prop :=
  (∀ (o p : U32) (rest : List Byte),
    header o p = magic ++ [o.extractLsb' 0 8, o.extractLsb' 8 8, o.extractLsb' 16 8, o.extractLsb' 24 8] ++
      [p.extractLsb' 0 8, p.extractLsb' 8 8, p.extractLsb' 16 8, p.extractLsb' 24 8] ∧
    le32 (header o p ++ rest) 8 = some o ∧ le32 (header o p ++ rest) 12 = some p) ∧
  (∀ (s t : State) (d : List Byte), s.mode = .idle → s.port = some (.decompress d) → step s = .next t →
    t.mode = .decompressing → le32 d 8 = some t.orig ∧ le32 d 12 = some t.psize) ∧
  (∀ s t : State, s.port = none → s.mode = .compressing → s.inp.length ≤ s.pos → (padded s.tok).length < 2 ^ 32 →
    step s = .next t → ∃ o p : U32, t.result = header o p ++ padded s.tok ∧ o = BitVec.ofNat 32 s.inp.length ∧
      p.toNat = (padded s.tok).length)

/-- The end of COMPRESS (42_stream_assembler section 2): it pads with the fewest zero bytes that reach a multiple of 16 and
returns the container, or raises TooLarge where the padded stream has 2^32 bytes or more (decision D13). The discarded
variables of the completed state are empty or 0, which is the model's choice, log entry 5. -/
def Obligations.CompressFinishes : Prop :=
  ∀ s : State, s.port = none → s.mode = .compressing → s.inp.length ≤ s.pos →
    (2 ^ 32 ≤ (padded s.tok).length →
      ∃ t, step s = .next t ∧ t.record = (.err .tooLarge, []) ∧ t.mode = .idle) ∧
    ((padded s.tok).length < 2 ^ 32 → ∃ n, n < 16 ∧ (s.tok.length + n) % 16 = 0 ∧
      step s = .next (completed (magic ++ putLe32 (BitVec.ofNat 32 s.inp.length) ++
        putLe32 (BitVec.ofNat 32 (s.tok.length + n)) ++ (s.tok ++ List.replicate n 0x00#8)) s))

/-- The spec's inference of the header invariants of a container COMPRESS returns (42_stream_assembler section 2). -/
def Obligations.ContainerHeader : Prop :=
  ∀ (s : State) (d r : List Byte), s.mode = .idle → Returns (.compress d) s .ok r →
    16 ≤ r.length ∧ r.take 8 = magic ∧ le32 r 8 = some (BitVec.ofNat 32 d.length) ∧ d.length < 2 ^ 32 ∧
    (r.length - 16) % 16 = 0 ∧ le32 r 12 = some (BitVec.ofNat 32 (r.length - 16)) ∧ r.length - 16 < 2 ^ 32

/-- The spec's inference for the empty input (42_stream_assembler section 4, 95_test_vectors V-ASM-1). -/
def Obligations.EmptyInput : Prop :=
  ∀ s : State, s.mode = .idle →
    Returns (.compress []) s .ok [0x4C#8, 0x5A#8, 0x50#8, 0x32#8, 0xAE#8, 0x47#8, 0x81#8, 0x3F#8,
      0x00#8, 0x00#8, 0x00#8, 0x00#8, 0x00#8, 0x00#8, 0x00#8, 0x00#8]

/-! ### The token encoder -/

/-- 40_token_codec R105, R109 and R111: what each decision appends to TOK, and the fault outside its range. -/
def Obligations.EmitAppends : Prop :=
  (∀ (d : List Byte) (s : State),
    (1 ≤ d.length ∧ d.length ≤ 63 →
      emit (.lit d) s = .next { s with tok := s.tok ++ (BitVec.ofNat 8 d.length :: d) }) ∧
    (¬(1 ≤ d.length ∧ d.length ≤ 63) → emit (.lit d) s = .fault .encoderParamRange)) ∧
  (∀ (n : Nat) (v : Byte) (s : State),
    (4 ≤ n ∧ n ≤ 16387 → emit (.rle n v) s =
      .next { s with tok := s.tok ++ [BitVec.ofNat 8 (64 + (n - 4) / 256), BitVec.ofNat 8 ((n - 4) % 256), v] }) ∧
    (¬(4 ≤ n ∧ n ≤ 16387) → emit (.rle n v) s = .fault .encoderParamRange)) ∧
  (∀ (l o : Nat) (s : State),
    (3 ≤ l ∧ l ≤ 18 ∧ 1 ≤ o ∧ o ≤ 2048 → emit (.ref l o) s =
      .next { s with tok := s.tok ++
        [BitVec.ofNat 8 (128 + (l - 3) * 8 + (o - 1) / 256), BitVec.ofNat 8 ((o - 1) % 256)] }) ∧
    (¬(3 ≤ l ∧ l ≤ 18 ∧ 1 ≤ o ∧ o ≤ 2048) → emit (.ref l o) s = .fault .encoderParamRange))

/-- 40_token_codec R107: there is no LIT0 decision, a literal of zero bytes is out of range, and no token the encoder
emits begins with the byte 0x00. -/
def Obligations.NoLit0Emitted : Prop :=
  (∀ s : State, emit .lit0 s = .fault .encoderParamRange ∧ emit (.lit []) s = .fault .encoderParamRange) ∧
  (∀ (i : Instr) (s t : State), emit i s = .next t → ∃ b0 rest, b0 ≠ 0x00#8 ∧ t.tok = s.tok ++ b0 :: rest)

/-! ### The match engine -/

/-- 41_match_engine R143: the RLE length is the longest run of equal bytes at `q`, capped at 16387; it qualifies from 4
bytes on. -/
def Obligations.RleLenIsLongestRun : Prop :=
  ∀ (inp : Memory) (q : Nat), q < inp.length →
    1 ≤ rleLen inp q ∧ rleLen inp q ≤ 16387 ∧ q + rleLen inp q ≤ inp.length ∧
    (∀ k, k < rleLen inp q → inp[q + k]? = inp[q]?) ∧
    (rleLen inp q = 16387 ∨ q + rleLen inp q = inp.length ∨ inp[q + rleLen inp q]? ≠ inp[q]?) ∧
    (4 ≤ rleLen inp q → ∀ s : State, s.inp = inp → qualifies s q = true)

/-- The key is exact: two positions have the same key if and only if their three bytes are equal (decision D10,
41_match_engine section 3). -/
def Obligations.KeyIsExact : Prop :=
  ∀ (inp : Memory) (p q : Nat), p + 3 ≤ inp.length → q + 3 ≤ inp.length →
    (key inp p = key inp q ↔ ∀ j, j < 3 → inp[p + j]? = inp[q + j]?)

/-- 41_match_engine R147: a match is extended byte by byte up to the cap, and without overlap it reads only bytes
already in the dictionary. The cap's own value is decision D9 (section 3): 18, the rest of the input and, without overlap,
the offset, whichever is smallest. -/
def Obligations.MatchLenIsLongestMatch : Prop :=
  ∀ (ov : Bool) (inp : Memory) (q e : Nat), e < q → q < inp.length →
    matchLen ov inp q e ≤ matchCap ov inp q e ∧
    (∀ j, j < matchLen ov inp q e → inp[e + j]? = inp[q + j]?) ∧
    (matchLen ov inp q e = matchCap ov inp q e ∨
      inp[e + matchLen ov inp q e]? ≠ inp[q + matchLen ov inp q e]?) ∧
    (ov = false → e + matchCap ov inp q e ≤ q) ∧
    (ov = false → matchCap ov inp q e = min 18 (min (inp.length - q) (q - e))) ∧
    (ov = true → matchCap ov inp q e = min 18 (inp.length - q))

/-- 41_match_engine R148: the best reference is a longest match among the candidates and has the smallest offset among
those, and there is none below 3 bytes. -/
def Obligations.BestRefIsLongestThenNearest : Prop :=
  ∀ (s : State) (n q : Nat), IndexInv s.cfg s.inp n s.idx → n ≤ q →
    (s.inp.length - q < 3 → bestRef s q = (0, 0)) ∧
    (3 ≤ s.inp.length - q →
      (bestRef s q = (0, 0) ∧ ∀ e ∈ candidates s q, matchLen s.cfg.overlapMatch s.inp q e < 3) ∨
      (3 ≤ (bestRef s q).1 ∧
        (∃ e ∈ candidates s q, matchLen s.cfg.overlapMatch s.inp q e = (bestRef s q).1 ∧ q - e = (bestRef s q).2) ∧
        ∀ e ∈ candidates s q, matchLen s.cfg.overlapMatch s.inp q e ≤ (bestRef s q).1 ∧
          (matchLen s.cfg.overlapMatch s.inp q e = (bestRef s q).1 → (bestRef s q).2 ≤ q - e)))

/-- 41_match_engine R150: which of the three decisions the engine takes at `pos`. -/
def Obligations.DecisionOrder : Prop :=
  ∀ (s : State), s.port = none → s.mode = .compressing → CompressInv s → s.pos < s.inp.length →
    ∃ i t, step s = .next t ∧ t.tok = s.tok ++ encode i ∧
      (4 ≤ rleLen s.inp s.pos → (bestRef s s.pos).1 ≤ rleLen s.inp s.pos → ∃ v, i = .rle (rleLen s.inp s.pos) v) ∧
      ((rleLen s.inp s.pos < 4 ∨ rleLen s.inp s.pos < (bestRef s s.pos).1) → 3 ≤ (bestRef s s.pos).1 →
        i = .ref (bestRef s s.pos).1 (bestRef s s.pos).2) ∧
      (rleLen s.inp s.pos < 4 → (bestRef s s.pos).1 < 3 → ∃ d, i = .lit d)

/-- 41_match_engine R151: an RLE of at least 4 bytes that is as long as the reference is emitted, the run is appended
to the dictionary one byte at a time, and `pos` passes it. -/
def Obligations.EngineEmitsRle : Prop :=
  ∀ (s : State) (v : Byte), s.port = none → s.mode = .compressing → s.inp[s.pos]? = some v →
    4 ≤ rleLen s.inp s.pos → (bestRef s s.pos).1 ≤ rleLen s.inp s.pos →
    step s = .next { appendDictAll (List.replicate (rleLen s.inp s.pos) v) s with
      pos := s.pos + rleLen s.inp s.pos, tok := s.tok ++ encode (.rle (rleLen s.inp s.pos) v) }

/-- 41_match_engine R152: a reference that beats the RLE is emitted with a length of 3 to 18 and an offset of 1 to 2048,
the copied bytes are appended to the dictionary, each read `offset` places before it, and `pos` passes them. -/
def Obligations.EngineEmitsRef : Prop :=
  ∀ s : State, s.port = none → s.mode = .compressing → CompressInv s → s.pos < s.inp.length →
    ¬(4 ≤ rleLen s.inp s.pos ∧ (bestRef s s.pos).1 ≤ rleLen s.inp s.pos) → 3 ≤ (bestRef s s.pos).1 →
    (bestRef s s.pos).1 ≤ 18 ∧ 1 ≤ (bestRef s s.pos).2 ∧ (bestRef s s.pos).2 ≤ 2048 ∧
    ∃ ext : List Byte, ext.length = (bestRef s s.pos).1 ∧
      (∀ i, i < ext.length → ext[i]? = (s.dict ++ ext)[s.pos - (bestRef s s.pos).2 + i]?) ∧
      step s = .next { appendDictAll ext s with
        pos := s.pos + (bestRef s s.pos).1,
        tok := s.tok ++ encode (.ref (bestRef s s.pos).1 (bestRef s s.pos).2) }

/-- 41_match_engine R153 (with R158's order of the appends): the literal grows from one byte while the next position
does not qualify, at most to 63 bytes and to the end of the input, each byte in the dictionary before the next
lookahead. -/
def Obligations.EngineEmitsLit : Prop :=
  ∀ s : State, s.port = none → s.mode = .compressing → s.pos < s.inp.length →
    ¬(4 ≤ rleLen s.inp s.pos ∧ (bestRef s s.pos).1 ≤ rleLen s.inp s.pos) → (bestRef s s.pos).1 < 3 →
    ∃ n, 1 ≤ n ∧ n ≤ 63 ∧ s.pos + n ≤ s.inp.length ∧
      (∀ j, 1 ≤ j → j < n → qualifies (appendDictAll ((s.inp.drop s.pos).take j) s) (s.pos + j) = false) ∧
      (n = 63 ∨ s.pos + n = s.inp.length ∨
        qualifies (appendDictAll ((s.inp.drop s.pos).take n) s) (s.pos + n) = true) ∧
      step s = .next { appendDictAll ((s.inp.drop s.pos).take n) s with
        pos := s.pos + n, tok := s.tok ++ encode (.lit ((s.inp.drop s.pos).take n)) }

/-- What one append does to the index (decisions D7, D10 and D12, 41_match_engine section 5): the new position goes to
the front of its key's list, a list over the cap loses its oldest entry, and entries out of the window go. -/
def Obligations.AppendUpdatesIndex : Prop :=
  ∀ (k : Config) (inp : Memory) (p w : Nat) (x : Index), Index.wf x = true →
    Index.wf (indexAppend k inp p x) = true ∧
    (key inp p = some w → Index.lookup w (indexAppend k inp p x) =
      (capList k.maxCandidates (p :: Index.lookup w x)).filter fun e => decide (p + 1 - e ≤ 2048)) ∧
    (key inp p ≠ some w → Index.lookup w (indexAppend k inp p x) =
      (Index.lookup w x).filter fun e => decide (p + 1 - e ≤ 2048))

/-- The spec's inference of the memory bound (41_match_engine section 6): an index that meets its invariant holds at most
2048 positions, and so does the index of whatever state a step answers from the machine's invariant. That the index is
empty outside a COMPRESS is log entry 5. -/
def Obligations.IndexIsBounded : Prop :=
  (∀ (k : Config) (inp : Memory) (n : Nat) (x : Index), IndexInv k inp n x → Index.total x ≤ 2048) ∧
  (∀ s t : State, MachineInv s → step s = .next t → Index.total t.idx ≤ 2048)

/-- The spec's inference that the index is a function of the input (41_match_engine section 6), as an invariant of every
step of a running COMPRESS. -/
def Obligations.StepKeepsIndexExact : Prop :=
  ∀ s t : State, s.mode = .compressing → CompressInv s → IndexExact s.cfg s.inp s.pos s.idx →
    step s = .next t → t.mode = .compressing → IndexExact t.cfg t.inp t.pos t.idx

/-- The same inference for one lookup: the candidates are the SEARCH_DEPTH most recent positions with the same three
bytes in the window. -/
def Obligations.CandidatesFromInput : Prop :=
  ∀ (s : State) (q w : Nat), s.cfg.WellFormed → IndexExact s.cfg s.inp q s.idx → key s.inp q = some w →
    candidates s q = (positions s.inp w q).take s.cfg.searchDepth

/-- The spec's inference about short literals (41_match_engine section 6): after a literal of fewer than 63 bytes that
does not end the input, the next decision is no literal. -/
def Obligations.ShortLiteralThenMatch : Prop :=
  ∀ (s t : State) (n : Nat) (d : List Byte), s.port = none → s.mode = .compressing → s.pos < s.inp.length →
    ¬(4 ≤ rleLen s.inp s.pos ∧ (bestRef s s.pos).1 ≤ rleLen s.inp s.pos) → (bestRef s s.pos).1 < 3 →
    step s = .next t → t.tok = s.tok ++ encode (.lit d) → n = d.length → n < 63 → t.pos < t.inp.length →
    t.pos = s.pos + n ∧ qualifies t t.pos = true

/-! ### The whole machine -/

/-- After power-on (decision D19, 10_state section 10): mode, status and result; the other values are the model's own
(log entries 4 and 7) and nothing is said of them here. -/
def Obligations.ResetState : Prop :=
  State.reset.mode = .idle ∧ State.reset.status = .none ∧ State.reset.result = [] ∧
  State.reset.cfg.maxCandidates = 50 ∧ State.reset.cfg.searchDepth = 50 ∧
  State.reset.cfg.overlapMatch = false ∧ State.reset.cfg.payloadBound = .containerEnd

/-- The power-on state of every instance meets the machine's invariant (the values of log entry 4 among it). -/
def Obligations.ResetMeetsInv : Prop := ∀ k : Config, MachineInv (State.resetWith k)

/-- Every step keeps the machine's invariant. Its clauses on IDLE and on the index in DECOMPRESS rest on log entry 5. -/
def Obligations.StepKeepsInv : Prop := ∀ s t : State, MachineInv s → step s = .next t → MachineInv t

/-- From a state that meets the invariant a step never faults but for a full buffer: no token operand is out of range
and no byte that does not exist is read (the spec's inference of token bounds, 41_match_engine section 6). -/
def Obligations.StepFaultsOnlyOnCapacity : Prop :=
  ∀ (s : State) (f : Fault), MachineInv s → step s = .fault f → f = .capacityExceeded

/-- The interface of decision D2 (42_stream_assembler section 1, 70_reset sections 1 and 5): an idle machine waits, and
a command presented while one runs is refused. -/
def Obligations.WaitsAndRefuses : Prop :=
  (∀ s : State, s.port = none → s.mode = .idle → step s = .next s) ∧
  (∀ (s : State) (cmd : Command), s.port = some cmd → s.mode ≠ .idle → step s = .refused .commandWhileBusy)

/-- No step writes a parameter (decision D2, 10_state section 7), and status and result stand until the command's end
(10_state section 10, 42_stream_assembler section 1). -/
def Obligations.ParametersAndRecordStand : Prop :=
  ∀ s t : State, step s = .next t → t.cfg = s.cfg ∧ (t.mode ≠ .idle → t.record = s.record)

/-- 10_state R46: while a command runs, OUT, DICT and TOK are only appended to, and the command's buffer stands. -/
def Obligations.BuffersOnlyGrow : Prop :=
  ∀ s t : State, step s = .next t → s.mode ≠ .idle → t.mode ≠ .idle →
    t.mode = s.mode ∧ s.out <+: t.out ∧ s.dict <+: t.dict ∧ s.tok <+: t.tok ∧ t.inp = s.inp ∧ t.c = s.c

/-- What the end of a command leaves: the record, which the command has set, the parameters and the host's port; every
other variable is as at power-on, the values of log entries 4 and 5 (10_state section 11, 60_exceptions sections 4 and 8,
70_reset section 1). -/
def Obligations.CommandEndDiscards : Prop :=
  ∀ s t : State, step s = .next t → s.mode ≠ .idle → t.mode = .idle →
    ∃ st r, st ≠ Status.none ∧ t = { State.resetWith s.cfg with port := s.port, status := st, result := r }

/-- The token stream stands for the dictionary at every engine step's boundary (the spec's inference at the end of
40_token_codec section 6). -/
def Obligations.StepKeepsTokReplays : Prop :=
  ∀ s t : State, s.mode = .compressing → CompressInv s → TokReplays s →
    step s = .next t → t.mode = .compressing → TokReplays t

/-- The spec's inference that a command ends (41_match_engine section 6): COMPRESS of an input that fits ends with OK
or TooLarge. -/
def Obligations.CompressEnds : Prop :=
  ∀ (s : State) (d : List Byte), s.mode = .idle → fits s.cfg.inCapacity d.length = true →
    (∃ r, Returns (.compress d) s .ok r) ∨ Returns (.compress d) s (.err .tooLarge) []

/-- The spec's inference that the decoder is total (40_token_codec section 6): DECOMPRESS of any bytes ends with OK or
one of the three format errors, in an instance whose OUT holds what a u32 size and one more token can ask. -/
def Obligations.DecompressEnds : Prop :=
  ∀ (s : State) (d : List Byte), s.mode = .idle → fits s.cfg.outCapacity (2 ^ 32 + 16387) = true →
    (∃ r, Returns (.decompress d) s .ok r) ∨ Returns (.decompress d) s (.err .badMagic) [] ∨
    Returns (.decompress d) s (.err .truncated) [] ∨ Returns (.decompress d) s (.err .invalidOffset) []

/-- The spec's inference of the round trip (42_stream_assembler section 4): what COMPRESS returns for `d`, DECOMPRESS
turns back into `d`, in any instance whose OUT holds `d`, with any parameters on either side. -/
def Obligations.RoundTrip : Prop :=
  ∀ (s s' : State) (d r : List Byte), s.mode = .idle → s'.mode = .idle →
    fits s'.cfg.outCapacity d.length = true →
    Returns (.compress d) s .ok r → Returns (.decompress r) s' .ok d

/-- The spec's inference that no command depends on an earlier one (70_reset section 5): what a command returns is a
function of its buffer and the parameters, whatever any other variable holds. -/
def Obligations.CommandsAreIndependent : Prop :=
  ∀ (s s' : State) (cmd : Command) (st : Status) (r : List Byte), s.mode = .idle → s'.mode = .idle →
    s.cfg = s'.cfg → Returns cmd s st r → Returns cmd s' st r

/-- The spec's inference of the size bound (42_stream_assembler section 4): the container of an input of `N` bytes is at
most 16 header bytes, `N + N / 63 + 1` token bytes and 15 padding bytes, and that of the empty input has no token. -/
def Obligations.ContainerSizeBound : Prop :=
  ∀ (s : State) (d r : List Byte), s.mode = .idle → Returns (.compress d) s .ok r →
    r.length ≤ 16 + (d.length + d.length / 63 + 1) + 15 ∧ (d = [] → r.length = 16)

/-- Where the machine is stuck (20_memory section 9 with decision D13): an input past IN_CAPACITY, or a token whose
output runs past OUT_CAPACITY, has no outcome; the model faults with capacityExceeded. -/
def Obligations.StuckPastCapacity : Prop :=
  (∀ (s : State) (d : List Byte), s.mode = .idle → s.port = some (.compress d) → d.length < 2 ^ 32 →
    fits s.cfg.inCapacity d.length = false → step s = .fault .capacityExceeded) ∧
  (∀ (i : Instr) (m : Memory) (s : State), expand i s.out = some m → i ≠ .lit0 → s.rp + i.size ≤ s.endp →
    fits s.cfg.outCapacity m.length = false → exec i s = .fault .capacityExceeded)
end

