-- ==== Sys2Proof/Laws/Decode.lean ====
section
/-! SUPPORT. The bit-field helpers as quotients and remainders, and the small lemmas of the decoder and the encoder. -/

namespace Sys2Proof

@[simp] theorem wellFormed_lit0 : Instr.lit0.wellFormed = true := rfl

@[simp] theorem wellFormed_lit (d : List Byte) :
    (Instr.lit d).wellFormed = true ↔ 1 ≤ d.length ∧ d.length ≤ 63 := by
  simp only [Instr.wellFormed, Bool.and_eq_true, decide_eq_true_eq]
  rfl

@[simp] theorem wellFormed_rle (n : Nat) (v : Byte) :
    (Instr.rle n v).wellFormed = true ↔ 4 ≤ n ∧ n ≤ 16387 := by
  simp only [Instr.wellFormed, Bool.and_eq_true, decide_eq_true_eq]
  rfl

@[simp] theorem wellFormed_ref (l o : Nat) :
    (Instr.ref l o).wellFormed = true ↔ 3 ≤ l ∧ l ≤ 18 ∧ 1 ≤ o ∧ o ≤ 2048 := by
  simp only [Instr.wellFormed, Bool.and_eq_true, decide_eq_true_eq, and_assoc]
  rfl

theorem byte_lt (b : Byte) : b.toNat < 256 := b.isLt

@[simp] theorem bits_7_7 (b : Byte) : bits 7 7 b = b.toNat / 128 := by
  have := byte_lt b
  simp only [bits, Nat.shiftRight_eq_div_pow]
  omega

@[simp] theorem bits_6_6 (b : Byte) : bits 6 6 b = b.toNat / 64 % 2 := by
  simp [bits, Nat.shiftRight_eq_div_pow]

@[simp] theorem bits_5_0 (b : Byte) : bits 5 0 b = b.toNat % 64 := by
  simp [bits]

@[simp] theorem bits_6_3 (b : Byte) : bits 6 3 b = b.toNat / 8 % 16 := by
  simp [bits, Nat.shiftRight_eq_div_pow]

@[simp] theorem bits_2_0 (b : Byte) : bits 2 0 b = b.toNat % 8 := by
  simp [bits]

/-- A high part and a low byte joined by shift and or are joined by multiply and add. -/
theorem shift8_or (hi : Nat) (b : Byte) : (hi <<< 8) ||| b.toNat = hi * 256 + b.toNat := by
  rw [← Nat.shiftLeft_add_eq_or_of_lt (byte_lt b), Nat.shiftLeft_eq]

theorem byte_ofNat_toNat (b : Byte) : BitVec.ofNat 8 b.toNat = b := by simp

/-- The first byte of an RLE token (30_encoding R77) as a sum. -/
theorem rle_first (c : Nat) (h : c < 16384) : 0x40 ||| ((c >>> 8) &&& 0x3F) = 64 + c / 256 := by
  have e1 : (c >>> 8) &&& 0x3F = c / 256 := by
    rw [Nat.shiftRight_eq_div_pow, show (0x3F : Nat) = 2 ^ 6 - 1 from rfl, Nat.and_two_pow_sub_one_eq_mod]
    omega
  rw [e1, show (0x40 : Nat) = 1 <<< 6 from rfl, ← Nat.shiftLeft_add_eq_or_of_lt (show c / 256 < 2 ^ 6 by omega)]

/-- The low byte of a biased field (30_encoding R77) as a remainder. -/
theorem low_byte (c : Nat) : c &&& 0xFF = c % 256 := by
  rw [show (0xFF : Nat) = 2 ^ 8 - 1 from rfl, Nat.and_two_pow_sub_one_eq_mod]

/-- The first byte of a reference token (30_encoding R77) as a sum. -/
theorem ref_first (l o : Nat) (hl : l < 16) (ho : o < 2048) :
    0x80 ||| (l <<< 3) ||| ((o >>> 8) &&& 0x07) = 128 + l * 8 + o / 256 := by
  have e1 : (o >>> 8) &&& 0x07 = o / 256 := by
    rw [Nat.shiftRight_eq_div_pow, show (0x07 : Nat) = 2 ^ 3 - 1 from rfl, Nat.and_two_pow_sub_one_eq_mod]
    omega
  have e2 : 0x80 ||| (l <<< 3) = (16 + l) <<< 3 := by
    rw [show (0x80 : Nat) = 1 <<< 7 from rfl,
      ← Nat.shiftLeft_add_eq_or_of_lt (show l <<< 3 < 2 ^ 7 by rw [Nat.shiftLeft_eq]; omega)]
    simp only [Nat.shiftLeft_eq]
    omega
  rw [e1, e2, ← Nat.shiftLeft_add_eq_or_of_lt (show o / 256 < 2 ^ 3 by omega), Nat.shiftLeft_eq]
  omega

theorem encode_rle (n : Nat) (v : Byte) (h : n - 4 < 16384) :
    encode (.rle n v) = [BitVec.ofNat 8 (64 + (n - 4) / 256), BitVec.ofNat 8 ((n - 4) % 256), v] := by
  simp only [encode, rle_first _ h, low_byte]

theorem encode_ref (l o : Nat) (hl : l - 3 < 16) (ho : o - 1 < 2048) :
    encode (.ref l o) =
      [BitVec.ofNat 8 (128 + (l - 3) * 8 + (o - 1) / 256), BitVec.ofNat 8 ((o - 1) % 256)] := by
  simp only [encode, ref_first _ _ hl ho, low_byte]

/-- The decoder's four branches with the first byte's bits as numbers (30_encoding R79). -/
theorem decode_cons (b0 : Byte) (rest : List Byte) :
    decode (b0 :: rest) =
      if 128 ≤ b0.toNat then decodeRef b0 rest
      else if 64 ≤ b0.toNat then decodeRle b0 rest
      else if b0.toNat = 0 then .ok (.lit0, rest)
      else decodeLit b0.toNat rest := by
  have hb := byte_lt b0
  simp only [decode, bits_7_7, bits_6_6, bits_5_0]
  by_cases h1 : 128 ≤ b0.toNat
  · rw [if_pos (by omega), if_pos h1]
  · rw [if_neg (by omega), if_neg h1]
    by_cases h2 : 64 ≤ b0.toNat
    · rw [if_pos (by omega), if_pos h2]
    · have : b0.toNat % 64 = b0.toNat := by omega
      rw [if_neg (by omega), if_neg h2, this]

theorem tokenSize_eq (b0 : Byte) :
    tokenSize b0 = if 128 ≤ b0.toNat then 2 else if 64 ≤ b0.toNat then 3 else 1 + b0.toNat := by
  have hb := byte_lt b0
  simp only [tokenSize, bits_7_7, bits_6_6, bits_5_0]
  by_cases h1 : 128 ≤ b0.toNat
  · rw [if_pos (by omega), if_pos h1]
  · rw [if_neg (by omega), if_neg h1]
    by_cases h2 : 64 ≤ b0.toNat
    · rw [if_pos (by omega), if_pos h2]
    · rw [if_neg (by omega), if_neg h2]
      omega

theorem decodeRle_cons (b0 b1 v : Byte) (rest : List Byte) :
    decodeRle b0 (b1 :: v :: rest) = .ok (.rle ((b0.toNat % 64) * 256 + b1.toNat + 4) v, rest) := by
  simp only [decodeRle, bits_5_0, shift8_or]

theorem decodeRef_cons (b0 b1 : Byte) (rest : List Byte) :
    decodeRef b0 (b1 :: rest) =
      .ok (.ref (b0.toNat / 8 % 16 + 3) ((b0.toNat % 8) * 256 + b1.toNat + 1), rest) := by
  simp only [decodeRef, bits_6_3, bits_2_0, shift8_or]

/-- Everything the decoder can answer for a first byte: one of the four tokens with its operands, or a token cut short. -/
theorem decode_cases (b0 : Byte) (rest : List Byte) :
    (128 ≤ b0.toNat ∧
      ((rest = [] ∧ decode (b0 :: rest) = .error .cutShort) ∨
       ∃ b1 r, rest = b1 :: r ∧ decode (b0 :: rest) =
         .ok (.ref (b0.toNat / 8 % 16 + 3) ((b0.toNat % 8) * 256 + b1.toNat + 1), r))) ∨
    (64 ≤ b0.toNat ∧ b0.toNat < 128 ∧
      ((rest.length < 2 ∧ decode (b0 :: rest) = .error .cutShort) ∨
       ∃ b1 v r, rest = b1 :: v :: r ∧ decode (b0 :: rest) =
         .ok (.rle ((b0.toNat % 64) * 256 + b1.toNat + 4) v, r))) ∨
    (b0 = 0x00#8 ∧ decode (b0 :: rest) = .ok (.lit0, rest)) ∨
    (1 ≤ b0.toNat ∧ b0.toNat < 64 ∧
      ((rest.length < b0.toNat ∧ decode (b0 :: rest) = .error .cutShort) ∨
       (b0.toNat ≤ rest.length ∧
         decode (b0 :: rest) = .ok (.lit (rest.take b0.toNat), rest.drop b0.toNat)))) := by
  rw [decode_cons]
  by_cases h1 : 128 ≤ b0.toNat
  · refine .inl ⟨h1, ?_⟩
    rw [if_pos h1]
    cases rest with
    | nil => exact .inl ⟨rfl, rfl⟩
    | cons b1 r => exact .inr ⟨b1, r, rfl, decodeRef_cons b0 b1 r⟩
  · rw [if_neg h1]
    by_cases h2 : 64 ≤ b0.toNat
    · refine .inr (.inl ⟨h2, by omega, ?_⟩)
      rw [if_pos h2]
      match rest with
      | [] => exact .inl ⟨by simp, rfl⟩
      | [_] => exact .inl ⟨by simp, rfl⟩
      | b1 :: v :: r => exact .inr ⟨b1, v, r, rfl, decodeRle_cons b0 b1 v r⟩
    · rw [if_neg h2]
      by_cases h3 : b0.toNat = 0
      · refine .inr (.inr (.inl ⟨?_, by rw [if_pos h3]⟩))
        exact BitVec.eq_of_toNat_eq (by simpa using h3)
      · refine .inr (.inr (.inr ⟨by omega, by omega, ?_⟩))
        rw [if_neg h3]
        by_cases h4 : rest.length < b0.toNat
        · exact .inl ⟨h4, by simp [decodeLit, h4]⟩
        · exact .inr ⟨by omega, by simp [decodeLit, h4]⟩

end Sys2Proof
end

