-- ==== Sys2Proof/Laws/State.lean ====
section
/-! SUPPORT. One lemma per field for each update of the state, so that no proof unfolds an update. -/

namespace Sys2Proof.Machine

/-! ### What the end of a command discards -/

@[simp] theorem discard_cfg (s : State) : (discard s).cfg = s.cfg := rfl
@[simp] theorem discard_port (s : State) : (discard s).port = s.port := rfl
@[simp] theorem discard_mode (s : State) : (discard s).mode = s.mode := rfl
@[simp] theorem discard_status (s : State) : (discard s).status = s.status := rfl
@[simp] theorem discard_result (s : State) : (discard s).result = s.result := rfl
@[simp] theorem discard_inp (s : State) : (discard s).inp = [] := rfl
@[simp] theorem discard_pos (s : State) : (discard s).pos = 0 := rfl
@[simp] theorem discard_dict (s : State) : (discard s).dict = [] := rfl
@[simp] theorem discard_idx (s : State) : (discard s).idx = [] := rfl
@[simp] theorem discard_tok (s : State) : (discard s).tok = [] := rfl
@[simp] theorem discard_c (s : State) : (discard s).c = [] := rfl
@[simp] theorem discard_rp (s : State) : (discard s).rp = 0 := rfl
@[simp] theorem discard_out (s : State) : (discard s).out = [] := rfl
@[simp] theorem discard_orig (s : State) : (discard s).orig = 0 := rfl
@[simp] theorem discard_psize (s : State) : (discard s).psize = 0 := rfl
@[simp] theorem discard_endp (s : State) : (discard s).endp = 0 := rfl

/-! ### The state after an error -/

@[simp] theorem aborted_cfg (e : ErrorKind) (s : State) : (aborted e s).cfg = s.cfg := rfl
@[simp] theorem aborted_port (e : ErrorKind) (s : State) : (aborted e s).port = s.port := rfl
@[simp] theorem aborted_mode (e : ErrorKind) (s : State) : (aborted e s).mode = .idle := rfl
@[simp] theorem aborted_status (e : ErrorKind) (s : State) : (aborted e s).status = .err e := rfl
@[simp] theorem aborted_result (e : ErrorKind) (s : State) : (aborted e s).result = [] := rfl
@[simp] theorem aborted_inp (e : ErrorKind) (s : State) : (aborted e s).inp = [] := rfl
@[simp] theorem aborted_pos (e : ErrorKind) (s : State) : (aborted e s).pos = 0 := rfl
@[simp] theorem aborted_dict (e : ErrorKind) (s : State) : (aborted e s).dict = [] := rfl
@[simp] theorem aborted_idx (e : ErrorKind) (s : State) : (aborted e s).idx = [] := rfl
@[simp] theorem aborted_tok (e : ErrorKind) (s : State) : (aborted e s).tok = [] := rfl
@[simp] theorem aborted_c (e : ErrorKind) (s : State) : (aborted e s).c = [] := rfl
@[simp] theorem aborted_rp (e : ErrorKind) (s : State) : (aborted e s).rp = 0 := rfl
@[simp] theorem aborted_out (e : ErrorKind) (s : State) : (aborted e s).out = [] := rfl
@[simp] theorem aborted_orig (e : ErrorKind) (s : State) : (aborted e s).orig = 0 := rfl
@[simp] theorem aborted_psize (e : ErrorKind) (s : State) : (aborted e s).psize = 0 := rfl
@[simp] theorem aborted_endp (e : ErrorKind) (s : State) : (aborted e s).endp = 0 := rfl

/-! ### The state after a successful command -/

@[simp] theorem completed_cfg (r : List Byte) (s : State) : (completed r s).cfg = s.cfg := rfl
@[simp] theorem completed_port (r : List Byte) (s : State) : (completed r s).port = s.port := rfl
@[simp] theorem completed_mode (r : List Byte) (s : State) : (completed r s).mode = .idle := rfl
@[simp] theorem completed_status (r : List Byte) (s : State) : (completed r s).status = .ok := rfl
@[simp] theorem completed_result (r : List Byte) (s : State) : (completed r s).result = r := rfl
@[simp] theorem completed_inp (r : List Byte) (s : State) : (completed r s).inp = [] := rfl
@[simp] theorem completed_pos (r : List Byte) (s : State) : (completed r s).pos = 0 := rfl
@[simp] theorem completed_dict (r : List Byte) (s : State) : (completed r s).dict = [] := rfl
@[simp] theorem completed_idx (r : List Byte) (s : State) : (completed r s).idx = [] := rfl
@[simp] theorem completed_tok (r : List Byte) (s : State) : (completed r s).tok = [] := rfl
@[simp] theorem completed_c (r : List Byte) (s : State) : (completed r s).c = [] := rfl
@[simp] theorem completed_rp (r : List Byte) (s : State) : (completed r s).rp = 0 := rfl
@[simp] theorem completed_out (r : List Byte) (s : State) : (completed r s).out = [] := rfl
@[simp] theorem completed_orig (r : List Byte) (s : State) : (completed r s).orig = 0 := rfl
@[simp] theorem completed_psize (r : List Byte) (s : State) : (completed r s).psize = 0 := rfl
@[simp] theorem completed_endp (r : List Byte) (s : State) : (completed r s).endp = 0 := rfl

/-! ### The advance of the parse position -/

@[simp] theorem advance_cfg (n : Nat) (s : State) : (advance n s).cfg = s.cfg := rfl
@[simp] theorem advance_port (n : Nat) (s : State) : (advance n s).port = s.port := rfl
@[simp] theorem advance_mode (n : Nat) (s : State) : (advance n s).mode = s.mode := rfl
@[simp] theorem advance_status (n : Nat) (s : State) : (advance n s).status = s.status := rfl
@[simp] theorem advance_result (n : Nat) (s : State) : (advance n s).result = s.result := rfl
@[simp] theorem advance_inp (n : Nat) (s : State) : (advance n s).inp = s.inp := rfl
@[simp] theorem advance_pos (n : Nat) (s : State) : (advance n s).pos = s.pos + n := rfl
@[simp] theorem advance_dict (n : Nat) (s : State) : (advance n s).dict = s.dict := rfl
@[simp] theorem advance_idx (n : Nat) (s : State) : (advance n s).idx = s.idx := rfl
@[simp] theorem advance_tok (n : Nat) (s : State) : (advance n s).tok = s.tok := rfl
@[simp] theorem advance_c (n : Nat) (s : State) : (advance n s).c = s.c := rfl
@[simp] theorem advance_rp (n : Nat) (s : State) : (advance n s).rp = s.rp := rfl
@[simp] theorem advance_out (n : Nat) (s : State) : (advance n s).out = s.out := rfl
@[simp] theorem advance_orig (n : Nat) (s : State) : (advance n s).orig = s.orig := rfl
@[simp] theorem advance_psize (n : Nat) (s : State) : (advance n s).psize = s.psize := rfl
@[simp] theorem advance_endp (n : Nat) (s : State) : (advance n s).endp = s.endp := rfl

/-! ### One byte into the dictionary -/

@[simp] theorem appendDict_cfg (b : Byte) (s : State) : (appendDict b s).cfg = s.cfg := rfl
@[simp] theorem appendDict_port (b : Byte) (s : State) : (appendDict b s).port = s.port := rfl
@[simp] theorem appendDict_mode (b : Byte) (s : State) : (appendDict b s).mode = s.mode := rfl
@[simp] theorem appendDict_status (b : Byte) (s : State) : (appendDict b s).status = s.status := rfl
@[simp] theorem appendDict_result (b : Byte) (s : State) : (appendDict b s).result = s.result := rfl
@[simp] theorem appendDict_inp (b : Byte) (s : State) : (appendDict b s).inp = s.inp := rfl
@[simp] theorem appendDict_pos (b : Byte) (s : State) : (appendDict b s).pos = s.pos := rfl
@[simp] theorem appendDict_dict (b : Byte) (s : State) : (appendDict b s).dict = s.dict ++ [b] := rfl
@[simp] theorem appendDict_idx (b : Byte) (s : State) : (appendDict b s).idx = indexAppend s.cfg s.inp s.dict.length s.idx := rfl
@[simp] theorem appendDict_tok (b : Byte) (s : State) : (appendDict b s).tok = s.tok := rfl
@[simp] theorem appendDict_c (b : Byte) (s : State) : (appendDict b s).c = s.c := rfl
@[simp] theorem appendDict_rp (b : Byte) (s : State) : (appendDict b s).rp = s.rp := rfl
@[simp] theorem appendDict_out (b : Byte) (s : State) : (appendDict b s).out = s.out := rfl
@[simp] theorem appendDict_orig (b : Byte) (s : State) : (appendDict b s).orig = s.orig := rfl
@[simp] theorem appendDict_psize (b : Byte) (s : State) : (appendDict b s).psize = s.psize := rfl
@[simp] theorem appendDict_endp (b : Byte) (s : State) : (appendDict b s).endp = s.endp := rfl

/-! ### The state after power-on -/

@[simp] theorem resetWith_cfg (k : Config) : (State.resetWith k).cfg = k := rfl
@[simp] theorem resetWith_port (k : Config) : (State.resetWith k).port = none := rfl
@[simp] theorem resetWith_mode (k : Config) : (State.resetWith k).mode = .idle := rfl
@[simp] theorem resetWith_status (k : Config) : (State.resetWith k).status = .none := rfl
@[simp] theorem resetWith_result (k : Config) : (State.resetWith k).result = [] := rfl
@[simp] theorem resetWith_inp (k : Config) : (State.resetWith k).inp = [] := rfl
@[simp] theorem resetWith_pos (k : Config) : (State.resetWith k).pos = 0 := rfl
@[simp] theorem resetWith_dict (k : Config) : (State.resetWith k).dict = [] := rfl
@[simp] theorem resetWith_idx (k : Config) : (State.resetWith k).idx = [] := rfl
@[simp] theorem resetWith_tok (k : Config) : (State.resetWith k).tok = [] := rfl
@[simp] theorem resetWith_c (k : Config) : (State.resetWith k).c = [] := rfl
@[simp] theorem resetWith_rp (k : Config) : (State.resetWith k).rp = 0 := rfl
@[simp] theorem resetWith_out (k : Config) : (State.resetWith k).out = [] := rfl
@[simp] theorem resetWith_orig (k : Config) : (State.resetWith k).orig = 0 := rfl
@[simp] theorem resetWith_psize (k : Config) : (State.resetWith k).psize = 0 := rfl
@[simp] theorem resetWith_endp (k : Config) : (State.resetWith k).endp = 0 := rfl

/-! ### The placing of one instruction -/

@[simp] theorem withFetchWord_cfg (s : State) (nbits w : Nat) : (s.withFetchWord nbits w).cfg = s.cfg := rfl
@[simp] theorem withFetchWord_port (s : State) (nbits w : Nat) : (s.withFetchWord nbits w).port = none := rfl
@[simp] theorem withFetchWord_mode (s : State) (nbits w : Nat) : (s.withFetchWord nbits w).mode = .decompressing := rfl
@[simp] theorem withFetchWord_status (s : State) (nbits w : Nat) : (s.withFetchWord nbits w).status = s.status := rfl
@[simp] theorem withFetchWord_result (s : State) (nbits w : Nat) : (s.withFetchWord nbits w).result = s.result := rfl
@[simp] theorem withFetchWord_inp (s : State) (nbits w : Nat) : (s.withFetchWord nbits w).inp = s.inp := rfl
@[simp] theorem withFetchWord_pos (s : State) (nbits w : Nat) : (s.withFetchWord nbits w).pos = s.pos := rfl
@[simp] theorem withFetchWord_dict (s : State) (nbits w : Nat) : (s.withFetchWord nbits w).dict = s.dict := rfl
@[simp] theorem withFetchWord_idx (s : State) (nbits w : Nat) : (s.withFetchWord nbits w).idx = s.idx := rfl
@[simp] theorem withFetchWord_tok (s : State) (nbits w : Nat) : (s.withFetchWord nbits w).tok = s.tok := rfl
@[simp] theorem withFetchWord_c (s : State) (nbits w : Nat) : (s.withFetchWord nbits w).c = fetchContainer nbits w := rfl
@[simp] theorem withFetchWord_rp (s : State) (nbits w : Nat) : (s.withFetchWord nbits w).rp = headerSize := rfl
@[simp] theorem withFetchWord_out (s : State) (nbits w : Nat) : (s.withFetchWord nbits w).out = if s.out.length < 4294967295 then s.out else [] := rfl
@[simp] theorem withFetchWord_orig (s : State) (nbits w : Nat) : (s.withFetchWord nbits w).orig = 0xFFFFFFFF#32 := rfl
@[simp] theorem withFetchWord_psize (s : State) (nbits w : Nat) : (s.withFetchWord nbits w).psize = BitVec.ofNat 32 longestToken := rfl
@[simp] theorem withFetchWord_endp (s : State) (nbits w : Nat) : (s.withFetchWord nbits w).endp = headerSize + longestToken := rfl

/-! ### The updates on one another -/

@[simp] theorem discard_discard (s : State) : discard (discard s) = discard s := rfl

@[simp] theorem discard_aborted (e : ErrorKind) (s : State) : discard (aborted e s) = aborted e s := rfl

@[simp] theorem discard_completed (r : List Byte) (s : State) : discard (completed r s) = completed r s := rfl

@[simp] theorem discard_resetWith (k : Config) : discard (State.resetWith k) = State.resetWith k := rfl

@[simp] theorem record_aborted (e : ErrorKind) (s : State) : (aborted e s).record = (.err e, []) := rfl

@[simp] theorem record_completed (r : List Byte) (s : State) : (completed r s).record = (.ok, r) := rfl

@[simp] theorem record_resetWith (k : Config) : (State.resetWith k).record = (.none, []) := rfl

/-! ### Outcomes -/

@[simp] theorem onNext_next (s : State) (f : State → Host.Outcome State Fault Refusal) : onNext (.next s) f = f s := rfl

@[simp] theorem onNext_fault (r : Fault) (f : State → Host.Outcome State Fault Refusal) :
    onNext (.fault r) f = .fault r := rfl

@[simp] theorem onNext_refused (r : Refusal) (f : State → Host.Outcome State Fault Refusal) :
    onNext (.refused r) f = .refused r := rfl

/-- A chain of two operations answers a next state exactly when both do. -/
theorem onNext_eq_next {o : Host.Outcome State Fault Refusal} {f : State → Host.Outcome State Fault Refusal}
    {t : State} : onNext o f = .next t ↔ ∃ s, o = .next s ∧ f s = .next t := by
  cases o <;> simp

/-- The one error entry answers the aborted state. -/
@[simp] theorem raise_eq (e : ErrorKind) (s : State) : raise e s = .next (aborted e s) := rfl

/-- The one successful end answers the completed state. -/
@[simp] theorem complete_eq (r : List Byte) (s : State) : complete r s = .next (completed r s) := rfl

end Sys2Proof.Machine
end

