-- ==== Sys2Proof/Laws/Ops.lean ====
section
/-! SUPPORT. What the operations over byte sequences and over the candidate index can do, once each. -/

namespace Sys2Proof.Machine

/-! ### Byte sequences -/

@[simp] theorem read_eq (m : Memory) (a : Nat) : Memory.read m a = m[a]? := rfl

@[simp] theorem append_eq (m : Memory) (v : Byte) : Memory.append m v = m ++ [v] := rfl

/-- Every byte sequence is in the canonical form: its addresses are 0, 1, … in order. -/
@[simp] theorem memory_wf (m : Memory) : Memory.wf m = true := by
  simp [Memory.wf, Memory.cells, Function.comp_def, List.zipIdx_map_snd, List.range_eq_range']

/-- An append keeps the canonical form. -/
theorem append_wf (m : Memory) (v : Byte) : Memory.wf (Memory.append m v) = true := memory_wf _

/-- A read answers the byte that its cell lists. -/
theorem read_eq_some_iff (m : Memory) (a : Nat) (b : Byte) :
    Memory.read m a = some b ↔ (a, b) ∈ Memory.cells m := by
  simp [Memory.cells, List.mem_zipIdx_iff_getElem?]

/-- A slice is there exactly when the bytes are, and holds them in order. -/
theorem slice_eq_some_iff (m : Memory) (a n : Nat) (l : List Byte) :
    Memory.slice m a n = some l ↔ a + n ≤ m.length ∧ l = (m.drop a).take n := by
  unfold Memory.slice
  split <;> simp_all [eq_comm]

/-- The bytes after the last append are the old ones, and then the new one. -/
theorem read_append (m : Memory) (v : Byte) (a : Nat) :
    Memory.read (Memory.append m v) a = if a = m.length then some v else Memory.read m a := by
  simp only [read_eq, append_eq]
  rcases Nat.lt_trichotomy a m.length with h | h | h
  · rw [List.getElem?_append_left h, if_neg (by omega)]
  · subst h; simp
  · rw [if_neg (by omega), List.getElem?_eq_none (by simp; omega), List.getElem?_eq_none (by omega)]

theorem fits_mono {k : Option Nat} {a b : Nat} (h : a ≤ b) (hb : fits k b = true) : fits k a = true := by
  cases k with
  | none => rfl
  | some k => simp only [fits, decide_eq_true_eq] at *; omega

/-- The padding of a stream: fewer than 16 bytes, up to a multiple of 16. -/
theorem padCount_spec (n : Nat) : padCount n < 16 ∧ (n + padCount n) % 16 = 0 := by
  simp only [padCount, align]
  omega

theorem padded_length (tok : Memory) : (padded tok).length = tok.length + padCount tok.length := by simp [padded]

/-! ### The header's integers -/

/-- A header integer read where its four bytes lie. -/
theorem le32_eq (m : Memory) (a : Nat) (b0 b1 b2 b3 : Byte) (rest : List Byte) (h : m.drop a = b0 :: b1 :: b2 :: b3 :: rest) :
    le32 m a =
      some (b0.setWidth 32 ||| (b1.setWidth 32 <<< 8) ||| (b2.setWidth 32 <<< 16) ||| (b3.setWidth 32 <<< 24)) := by
  have hl : a + 4 ≤ m.length := by
    have := congrArg List.length h
    simp at this
    omega
  simp [le32, Memory.slice, hl, h]

/-- The bytes of an integer joined again give it back. -/
theorem le32_bytes (v : U32) :
    ((v.setWidth 8).setWidth 32 ||| (((v >>> 8).setWidth 8).setWidth 32 <<< 8) |||
      (((v >>> 16).setWidth 8).setWidth 32 <<< 16) ||| (((v >>> 24).setWidth 8).setWidth 32 <<< 24) : U32) = v := by
  apply BitVec.eq_of_getLsbD_eq
  intro i hi
  simp only [BitVec.getLsbD_or, BitVec.getLsbD_setWidth, BitVec.getLsbD_shiftLeft, BitVec.getLsbD_ushiftRight]
  rcases (by omega : i < 8 ∨ 8 ≤ i ∧ i < 16 ∨ 16 ≤ i ∧ i < 24 ∨ 24 ≤ i) with h | h | h | h <;>
    (simp only [show i < 32 by omega]; simp) <;> grind

@[simp] theorem putLe32_length (v : U32) : (putLe32 v).length = 4 := rfl

@[simp] theorem header_length (o p : U32) : (header o p).length = 16 := rfl

theorem take_header (o p : U32) (rest : List Byte) : (header o p ++ rest).take 8 = magic := rfl

theorem le32_header_orig (o p : U32) (rest : List Byte) : le32 (header o p ++ rest) 8 = some o := by
  rw [le32_eq (header o p ++ rest) 8 _ _ _ _ (putLe32 p ++ rest) rfl, le32_bytes]

theorem le32_header_psize (o p : U32) (rest : List Byte) : le32 (header o p ++ rest) 12 = some p := by
  rw [le32_eq (header o p ++ rest) 12 _ _ _ _ rest rfl, le32_bytes]

/-- Both header fields are there in a container of at least 16 bytes. -/
theorem le32_isSome (m : Memory) (a : Nat) (h : a + 4 ≤ m.length) : ∃ v, le32 m a = some v := by
  match hd : m.drop a with
  | b0 :: b1 :: b2 :: b3 :: rest => exact ⟨_, le32_eq m a b0 b1 b2 b3 rest hd⟩
  | [] | [_] | [_, _] | [_, _, _] =>
    have := congrArg List.length hd
    simp at this
    omega

/-! ### The candidate index -/

@[simp] theorem lookup_nil (k : Nat) : Index.lookup k [] = [] := rfl

theorem lookup_cons (k k' : Nat) (l : List Nat) (x : Index) :
    Index.lookup k ((k', l) :: x) = if k = k' then l else Index.lookup k x := rfl

/-- The canonical form, said of the list's head and tail. -/
theorem wf_cons (k : Nat) (l : List Nat) (x : Index) :
    Index.wf ((k, l) :: x) = true ↔
      (∀ e ∈ x, k < e.1) ∧ k < 2 ^ 24 ∧ l ≠ [] ∧ Index.wf x = true := by
  simp only [Index.wf, List.map_cons, List.pairwise_cons, List.all_cons, Bool.and_eq_true, decide_eq_true_eq,
    Bool.not_eq_true', List.isEmpty_eq_false_iff, List.mem_map, forall_exists_index, and_imp,
    forall_apply_eq_imp_iff₂]
  tauto

@[simp] theorem wf_nil : Index.wf [] = true := rfl

/-- A key below all the keys of an index has no entry. -/
theorem lookup_of_lt {k : Nat} {x : Index} (h : ∀ e ∈ x, k < e.1) : Index.lookup k x = [] := by
  induction x with
  | nil => rfl
  | cons e x ih =>
    obtain ⟨k', l⟩ := e
    have := h (k', l) (by simp)
    rw [lookup_cons, if_neg (by simp at this; omega), ih fun e he => h e (by simp [he])]

/-- An entry of an index in canonical form is what its key looks up. -/
theorem lookup_of_mem {k : Nat} {l : List Nat} {x : Index} (hx : Index.wf x = true) (h : (k, l) ∈ x) :
    Index.lookup k x = l := by
  induction x with
  | nil => simp at h
  | cons e x ih =>
    obtain ⟨k', l'⟩ := e
    obtain ⟨hlt, -, -, hx'⟩ := (wf_cons k' l' x).1 hx
    rw [lookup_cons]
    rcases List.mem_cons.1 h with h | h
    · cases h; simp
    · have := hlt _ h
      rw [if_neg (by simp at this; omega), ih hx' h]

/-- What a key looks up is the empty list or an entry. -/
theorem mem_of_lookup {k : Nat} {x : Index} (h : Index.lookup k x ≠ []) : (k, Index.lookup k x) ∈ x := by
  induction x with
  | nil => simp at h
  | cons e x ih =>
    obtain ⟨k', l'⟩ := e
    rw [lookup_cons] at h ⊢
    split at h
    · next hk => subst hk; simp
    · next hk => rw [if_neg hk]; exact List.mem_cons_of_mem _ (ih h)

theorem mem_entry {k : Nat} {l : List Nat} {x : Index} {e : Nat × List Nat} (h : e ∈ Index.entry k l x) :
    e = (k, l) ∨ e ∈ x := by
  unfold Index.entry at h
  split at h
  · exact .inr h
  · exact List.mem_cons.1 h

/-- An entry put in front of a canonical index with larger keys is canonical. -/
theorem wf_entry {k : Nat} {l : List Nat} {x : Index} (hk : k < 2 ^ 24) (hlt : ∀ e ∈ x, k < e.1)
    (hx : Index.wf x = true) : Index.wf (Index.entry k l x) = true := by
  unfold Index.entry
  split
  · exact hx
  · next h => exact (wf_cons k l x).2 ⟨hlt, hk, by simpa using h, hx⟩

theorem lookup_entry {k : Nat} {l : List Nat} {x : Index} (hlt : ∀ e ∈ x, k < e.1) (w : Nat) :
    Index.lookup w (Index.entry k l x) = if w = k then l else Index.lookup w x := by
  unfold Index.entry
  split
  · next h =>
    split
    · next hw => subst hw; rw [lookup_of_lt hlt, List.isEmpty_iff.1 h]
    · rfl
  · rw [lookup_cons]

/-- The entries of an index with one list replaced: the new one, or an old one under another key. -/
theorem mem_put {k : Nat} {l : List Nat} {x : Index} {e : Nat × List Nat} (h : e ∈ Index.put k l x) :
    e = (k, l) ∨ e ∈ x := by
  induction x with
  | nil => exact mem_entry h
  | cons e' x ih =>
    obtain ⟨k', l'⟩ := e'
    simp only [Index.put] at h
    split at h
    · exact mem_entry h
    · split at h
      · rcases mem_entry h with h | h <;> simp [h]
      · rcases List.mem_cons.1 h with h | h
        · simp [h]
        · rcases ih h with h | h <;> simp [h]

theorem wf_put {k : Nat} {l : List Nat} {x : Index} (hk : k < 2 ^ 24) (hx : Index.wf x = true) :
    Index.wf (Index.put k l x) = true := by
  induction x with
  | nil => exact wf_entry hk (by simp) hx
  | cons e x ih =>
    obtain ⟨k', l'⟩ := e
    obtain ⟨hlt, hk', hl', hx'⟩ := (wf_cons k' l' x).1 hx
    simp only [Index.put]
    split
    · next h =>
      refine wf_entry hk (fun e he => ?_) hx
      rcases List.mem_cons.1 he with he | he
      · simpa [he] using h
      · have := hlt e he; omega
    · next h =>
      split
      · next h' => exact wf_entry hk (fun e he => by have := hlt e he; omega) hx'
      · next h' =>
        refine (wf_cons _ _ _).2 ⟨fun e he => ?_, hk', hl', ih hx'⟩
        rcases mem_put he with he | he
        · simp only [he]; omega
        · exact hlt e he

/-- The list of one key replaced: that key looks up the new list, every other key what it did. -/
theorem lookup_put {k : Nat} {l : List Nat} {x : Index} (hx : Index.wf x = true) (w : Nat) :
    Index.lookup w (Index.put k l x) = if w = k then l else Index.lookup w x := by
  induction x with
  | nil => exact lookup_entry (by simp) w
  | cons e x ih =>
    obtain ⟨k', l'⟩ := e
    obtain ⟨hlt, hk', hl', hx'⟩ := (wf_cons k' l' x).1 hx
    simp only [Index.put]
    split
    · next h =>
      refine lookup_entry (fun e he => ?_) w
      rcases List.mem_cons.1 he with he | he
      · simpa [he] using h
      · have := hlt e he; omega
    · next h =>
      split
      · next h' =>
        subst h'
        rw [lookup_entry hlt, lookup_cons]
        split <;> rfl
      · next h' =>
        rw [lookup_cons, lookup_cons, ih hx']
        split
        · next hw => subst hw; rw [if_neg (by omega)]
        · rfl

theorem mem_evict {n : Nat} {x : Index} {e : Nat × List Nat} (h : e ∈ Index.evict n x) :
    ∃ l, (e.1, l) ∈ x ∧ e.2 = l.filter (fun p => decide (n - p ≤ window)) := by
  induction x with
  | nil => simp [Index.evict] at h
  | cons e' x ih =>
    obtain ⟨k', l'⟩ := e'
    rcases mem_entry h with h | h
    · exact ⟨l', by simp [h], by simp [h]⟩
    · obtain ⟨l, hl, he⟩ := ih h
      exact ⟨l, by simp [hl], he⟩

theorem wf_evict {n : Nat} {x : Index} (hx : Index.wf x = true) : Index.wf (Index.evict n x) = true := by
  induction x with
  | nil => rfl
  | cons e x ih =>
    obtain ⟨k', l'⟩ := e
    obtain ⟨hlt, hk', hl', hx'⟩ := (wf_cons k' l' x).1 hx
    refine wf_entry hk' (fun e he => ?_) (ih hx')
    obtain ⟨l, hl, -⟩ := mem_evict he
    exact hlt (e.1, l) hl

/-- Eviction drops from every list the positions out of the window. -/
theorem lookup_evict {n : Nat} {x : Index} (hx : Index.wf x = true) (w : Nat) :
    Index.lookup w (Index.evict n x) = (Index.lookup w x).filter (fun p => decide (n - p ≤ window)) := by
  induction x with
  | nil => rfl
  | cons e x ih =>
    obtain ⟨k', l'⟩ := e
    obtain ⟨hlt, hk', hl', hx'⟩ := (wf_cons k' l' x).1 hx
    rw [lookup_cons, Index.evict, lookup_entry, ih hx']
    · split <;> rfl
    · intro e he
      obtain ⟨l, hl, -⟩ := mem_evict he
      exact hlt (e.1, l) hl

theorem wf_insert {cap k p : Nat} {x : Index} (hk : k < 2 ^ 24) (hx : Index.wf x = true) :
    Index.wf (Index.insert cap k p x) = true := wf_put hk hx

/-- A capped list is a front part of the list. -/
theorem capList_prefix (cap : Nat) (l : List Nat) : capList cap l <+: l := by
  unfold capList
  split
  · exact List.dropLast_prefix l
  · exact List.prefix_refl l

/-- A list that was within the cap before an insertion is cut to the cap after it. -/
theorem capList_cons {cap p : Nat} {l : List Nat} (h : l.length ≤ cap) : capList cap (p :: l) = (p :: l).take cap := by
  unfold capList
  split
  · next hc =>
    rw [List.dropLast_eq_take]
    congr 1
    simp at hc ⊢
    omega
  · next hc => rw [List.take_of_length_le (by omega)]

end Sys2Proof.Machine
end

