-- ==== Sys2Proof/Laws/Operands.lean ====
section
/-! SUPPORT. What the operand forms can do, once each: the copy, the run length, the key, the match length, the best
reference. -/

namespace Sys2Proof.Machine

/-! ### The copy -/

/-- A copy that starts inside the sequence appends `n` bytes, each equal to the one as far back as the copy reads. -/
theorem copyFrom_spec (n : Nat) : ∀ (src : Nat) (m : Memory), src < m.length →
    ∃ ext : List Byte, copyFrom n src m = some (m ++ ext) ∧ ext.length = n ∧
      ∀ i, i < n → (m ++ ext)[m.length + i]? = (m ++ ext)[src + i]? := by
  induction n with
  | zero => intro src m _; exact ⟨[], by simp [copyFrom], rfl, by omega⟩
  | succ n ih =>
    intro src m h
    obtain ⟨ext, h1, h2, h3⟩ := ih (src + 1) (m ++ [m[src]]) (by simp; omega)
    refine ⟨m[src] :: ext, by simp [copyFrom, List.getElem?_eq_getElem h, h1], by simp [h2], ?_⟩
    intro i hi
    simp only [List.append_assoc, List.cons_append, List.nil_append, List.length_append, List.length_cons,
      List.length_nil] at h3
    cases i with
    | zero => simp [List.getElem?_append_left h, List.getElem?_eq_getElem h]
    | succ i =>
      have := h3 i (by omega)
      rw [show m.length + (i + 1) = m.length + (0 + 1) + i by omega, this]
      congr 1
      omega

/-- A copy of at least one byte that answers starts inside the sequence. -/
theorem copyFrom_src {n src : Nat} {m m' : Memory} (h : copyFrom (n + 1) src m = some m') : src < m.length := by
  by_contra hc
  simp [copyFrom, List.getElem?_eq_none (show m.length ≤ src by omega)] at h

/-- Whatever a copy answers is the sequence with `n` bytes appended. -/
theorem copyFrom_append {n src : Nat} {m m' : Memory} (h : copyFrom n src m = some m') :
    ∃ ext : List Byte, m' = m ++ ext ∧ ext.length = n := by
  cases n with
  | zero => simp only [copyFrom, Option.some.injEq] at h; exact ⟨[], by simp [h], rfl⟩
  | succ n =>
    obtain ⟨ext, h1, h2, -⟩ := copyFrom_spec (n + 1) src m (copyFrom_src h)
    rw [h1] at h
    exact ⟨ext, by simpa using h.symm, h2⟩

/-- The appended bytes of a copy in closed form: the tail from `src` on, repeated. -/
theorem copy_periodic {m ext : List Byte} {src n : Nat} (hs : src < m.length)
    (h : ∀ i, i < n → (m ++ ext)[m.length + i]? = (m ++ ext)[src + i]?) :
    ∀ i, i < n → (m ++ ext)[m.length + i]? = m[src + i % (m.length - src)]? := by
  intro i
  induction i using Nat.strongRecOn with
  | ind i ih =>
    intro hi
    rw [h i hi]
    by_cases hlt : i < m.length - src
    · rw [Nat.mod_eq_of_lt hlt, List.getElem?_append_left (by omega)]
    · have := ih (i - (m.length - src)) (by omega) (by omega)
      rw [show m.length + (i - (m.length - src)) = src + i by omega] at this
      rw [this, Nat.mod_eq_sub_mod (show i ≥ m.length - src by omega)]

/-- A copy out of a front part of `inp` whose source agrees with what follows extends the front part. -/
theorem copyFrom_take (n : Nat) : ∀ (src q : Nat) (inp : Memory), src < q → q + n ≤ inp.length →
    (∀ i, i < n → inp[src + i]? = inp[q + i]?) → copyFrom n src (inp.take q) = some (inp.take (q + n)) := by
  induction n with
  | zero => intro src q inp _ _ _; rfl
  | succ n ih =>
    intro src q inp h1 h2 h3
    have h0 := h3 0 (by omega)
    simp only [Nat.add_zero] at h0
    have hr : Memory.read (inp.take q) src = some inp[q] := by
      rw [read_eq, List.getElem?_take_of_lt h1, h0, List.getElem?_eq_getElem (by omega)]
    simp only [copyFrom, hr]
    rw [append_eq, show inp.take q ++ [inp[q]] = inp.take (q + 1) by simp [List.take_add_one]]
    rw [ih (src + 1) (q + 1) inp (by omega) (by omega) (fun i hi => by
      have := h3 (i + 1) (by omega)
      rw [show src + 1 + i = src + (i + 1) by omega, show q + 1 + i = q + (i + 1) by omega, this])]
    congr 2
    omega

/-! ### The run length -/

/-- The front part of a list that equals a byte: equal bytes, and as many as there are. -/
theorem takeWhile_spec (v : Byte) (l : List Byte) :
    (l.takeWhile fun b => b == v).length ≤ l.length ∧
    (∀ k, k < (l.takeWhile fun b => b == v).length → l[k]? = some v) ∧
    ((l.takeWhile fun b => b == v).length = l.length ∨ l[(l.takeWhile fun b => b == v).length]? ≠ some v) := by
  induction l with
  | nil => simp
  | cons a l ih =>
    obtain ⟨h1, h2, h3⟩ := ih
    by_cases h : a = v
    · subst h
      simp only [List.takeWhile_cons, beq_self_eq_true, if_true, List.length_cons, List.getElem?_cons_succ]
      refine ⟨by omega, fun k hk => ?_, h3.imp (fun h => by omega) id⟩
      cases k with
      | zero => rfl
      | succ k => exact h2 k (by omega)
    · simp [h]

/-- Everything the run length is: between 1 and the cap, inside the input, over equal bytes, and as long as it can be. -/
theorem rleLen_spec (inp : Memory) (q : Nat) (hq : q < inp.length) :
    1 ≤ rleLen inp q ∧ rleLen inp q ≤ maxRle ∧ q + rleLen inp q ≤ inp.length ∧
    (∀ k, k < rleLen inp q → inp[q + k]? = inp[q]?) ∧
    (rleLen inp q = maxRle ∨ q + rleLen inp q = inp.length ∨ inp[q + rleLen inp q]? ≠ inp[q]?) := by
  have hd : inp.drop q = inp[q] :: inp.drop (q + 1) := List.drop_eq_getElem_cons hq
  generalize hv : inp[q] = v at hd
  have hq' : inp[q]? = some v := by rw [List.getElem?_eq_getElem hq, hv]
  have hr : rleLen inp q =
      1 + (((inp.drop (q + 1)).take (maxRle - 1)).takeWhile fun b => b == v).length := by simp only [rleLen, hd]
  obtain ⟨h1, h2, h3⟩ := takeWhile_spec v ((inp.drop (q + 1)).take (maxRle - 1))
  have hl : ((inp.drop (q + 1)).take (maxRle - 1)).length = min (maxRle - 1) (inp.length - (q + 1)) := by simp
  have hget : ∀ k, k < maxRle - 1 → ((inp.drop (q + 1)).take (maxRle - 1))[k]? = inp[q + (1 + k)]? := by
    intro k hk
    rw [List.getElem?_take_of_lt hk, List.getElem?_drop, Nat.add_assoc]
  rw [hl] at h1 h3
  rw [hr, hq']
  generalize (((inp.drop (q + 1)).take (maxRle - 1)).takeWhile fun b => b == v).length = w at *
  have hm : maxRle = 16387 := rfl
  refine ⟨by omega, by omega, by omega, fun k hk => ?_, ?_⟩
  · cases k with
    | zero => simpa using hq'
    | succ k =>
      rw [Nat.add_comm k 1, ← hget k (by omega)]
      exact h2 k (by omega)
  · rcases h3 with h3 | h3
    · omega
    · by_cases hw : w < maxRle - 1
      · rw [hget w hw] at h3
        exact .inr (.inr h3)
      · omega

/-- No byte at `q` is a run of length 0. -/
theorem rleLen_of_le {inp : Memory} {q : Nat} (hq : inp.length ≤ q) : rleLen inp q = 0 := by
  simp [rleLen, List.drop_eq_nil_of_le hq]

/-- The bytes of a run. -/
theorem take_rleLen {inp : Memory} {q : Nat} {v : Byte} (hv : inp[q]? = some v) :
    (inp.drop q).take (rleLen inp q) = List.replicate (rleLen inp q) v := by
  have hq : q < inp.length := by
    by_contra hc
    simp [List.getElem?_eq_none (show inp.length ≤ q by omega)] at hv
  obtain ⟨-, -, h3, h4, -⟩ := rleLen_spec inp q hq
  apply List.ext_getElem?
  intro k
  by_cases hk : k < rleLen inp q
  · rw [List.getElem?_take_of_lt hk, List.getElem?_drop, h4 k hk, hv, List.getElem?_replicate, if_pos hk]
  · rw [List.getElem?_eq_none (by simp; omega), List.getElem?_eq_none (by simp; omega)]

/-! ### The key -/

/-- The key of a position with three bytes: the three bytes as one number. -/
theorem key_of_three {inp : Memory} {p : Nat} {a b c : Byte} (ha : inp[p]? = some a) (hb : inp[p + 1]? = some b)
    (hc : inp[p + 2]? = some c) : key inp p = some (a.toNat * 65536 + b.toNat * 256 + c.toNat) := by
  obtain ⟨h2, hc'⟩ := List.getElem?_eq_some_iff.1 hc
  obtain ⟨h1, hb'⟩ := List.getElem?_eq_some_iff.1 hb
  obtain ⟨h0, ha'⟩ := List.getElem?_eq_some_iff.1 ha
  have hd : inp.drop p = a :: b :: c :: inp.drop (p + 3) := by
    rw [List.drop_eq_getElem_cons h0, List.drop_eq_getElem_cons h1, List.drop_eq_getElem_cons h2, ha', hb', hc']
  have ea := byte_lt a
  have eb := byte_lt b
  have ec := byte_lt c
  simp only [key, hd]
  rw [Nat.or_assoc, shift8_or, ← Nat.shiftLeft_add_eq_or_of_lt (show b.toNat * 256 + c.toNat < 2 ^ 16 by omega),
    Nat.shiftLeft_eq]
  exact congrArg some (by omega)

/-- A position has a key exactly when three bytes start at it. -/
theorem key_eq_none_iff {inp : Memory} {p : Nat} : key inp p = none ↔ inp.length < p + 3 := by
  by_cases h : inp.length < p + 3
  · refine ⟨fun _ => h, fun _ => ?_⟩
    match hd : inp.drop p with
    | a :: b :: c :: r => have := congrArg List.length hd; simp at this; omega
    | [] | [_] | [_, _] => simp only [key, hd]
  · refine ⟨fun hk => ?_, fun hc => absurd hc h⟩
    rw [key_of_three (List.getElem?_eq_getElem (show p < inp.length by omega))
      (List.getElem?_eq_getElem (show p + 1 < inp.length by omega))
      (List.getElem?_eq_getElem (show p + 2 < inp.length by omega))] at hk
    cases hk

/-- A key has 24 bits. -/
theorem key_lt {inp : Memory} {p w : Nat} (h : key inp p = some w) : w < 2 ^ 24 := by
  have hp : ¬ inp.length < p + 3 := fun hc => by rw [key_eq_none_iff.2 hc] at h; cases h
  have e0 := byte_lt inp[p]
  have e1 := byte_lt inp[p + 1]
  have e2 := byte_lt inp[p + 2]
  rw [key_of_three (List.getElem?_eq_getElem (show p < inp.length by omega))
    (List.getElem?_eq_getElem (show p + 1 < inp.length by omega))
    (List.getElem?_eq_getElem (show p + 2 < inp.length by omega))] at h
  have := Option.some.inj h
  omega

/-! ### The match length -/

/-- Everything the common length of two sequences is. -/
theorem commonLen_spec (a : List Byte) : ∀ b : List Byte,
    commonLen a b ≤ a.length ∧ commonLen a b ≤ b.length ∧ (∀ j, j < commonLen a b → a[j]? = b[j]?) ∧
    (commonLen a b = a.length ∨ commonLen a b = b.length ∨ a[commonLen a b]? ≠ b[commonLen a b]?) := by
  induction a with
  | nil => intro b; simp [commonLen]
  | cons x a ih =>
    intro b
    cases b with
    | nil => simp [commonLen]
    | cons y b =>
      obtain ⟨h1, h2, h3, h4⟩ := ih b
      by_cases h : x = y
      · subst h
        simp only [commonLen, if_true, List.length_cons, List.getElem?_cons_succ]
        refine ⟨by omega, by omega, fun j hj => ?_, h4.imp (fun h => by omega) (Or.imp (fun h => by omega) id)⟩
        cases j with
        | zero => rfl
        | succ j => exact h3 j (by omega)
      · simp [commonLen, h]

theorem matchCap_le (ov : Bool) (inp : Memory) (q e : Nat) :
    matchCap ov inp q e ≤ maxRef ∧ matchCap ov inp q e ≤ inp.length - q ∧
    (ov = false → matchCap ov inp q e ≤ q - e) := by
  unfold matchCap
  split <;> simp_all

/-- Everything the match length is: at most the cap, over equal bytes, and as long as it can be. -/
theorem matchLen_spec (ov : Bool) (inp : Memory) (q e : Nat) (he : e < q) :
    matchLen ov inp q e ≤ matchCap ov inp q e ∧
    (∀ j, j < matchLen ov inp q e → inp[e + j]? = inp[q + j]?) ∧
    (matchLen ov inp q e = matchCap ov inp q e ∨
      inp[e + matchLen ov inp q e]? ≠ inp[q + matchLen ov inp q e]?) := by
  obtain ⟨-, hc, -⟩ := matchCap_le ov inp q e
  obtain ⟨h1, h2, h3, h4⟩ := commonLen_spec ((inp.drop e).take (matchCap ov inp q e)) (inp.drop q)
  have hl : ((inp.drop e).take (matchCap ov inp q e)).length = min (matchCap ov inp q e) (inp.length - e) := by simp
  have hget : ∀ k, k < matchCap ov inp q e →
      ((inp.drop e).take (matchCap ov inp q e))[k]? = inp[e + k]? := by
    intro k hk
    rw [List.getElem?_take_of_lt hk, List.getElem?_drop]
  rw [hl] at h1 h4
  rw [List.length_drop] at h2 h4
  unfold matchLen
  refine ⟨by omega, fun j hj => ?_, ?_⟩
  · rw [← hget j (by omega), h3 j hj, List.getElem?_drop]
  · by_cases hw : commonLen ((inp.drop e).take (matchCap ov inp q e)) (inp.drop q) < matchCap ov inp q e
    · rw [hget _ hw, List.getElem?_drop] at h4
      rcases h4 with h4 | h4 | h4
      · omega
      · omega
      · exact .inr h4
    · omega

/-! ### The best reference -/

/-- Everything a search over candidates can answer: the best so far, if no candidate is longer, or the first of the
longest candidates. -/
theorem foldl_better_spec (ov : Bool) (inp : Memory) (q : Nat) (l : List Nat) : ∀ b : Nat × Nat,
    (l.foldl (better ov inp q) b = b ∧ ∀ e ∈ l, matchLen ov inp q e ≤ b.1) ∨
    ∃ l1 e l2, l = l1 ++ e :: l2 ∧ l.foldl (better ov inp q) b = (matchLen ov inp q e, q - e) ∧
      b.1 < matchLen ov inp q e ∧ (∀ e' ∈ l1, matchLen ov inp q e' < matchLen ov inp q e) ∧
      ∀ e' ∈ l2, matchLen ov inp q e' ≤ matchLen ov inp q e := by
  induction l with
  | nil => intro b; simp
  | cons c l ih =>
    intro b
    rw [List.foldl_cons]
    by_cases h : b.1 < matchLen ov inp q c
    · have hb : better ov inp q b c = (matchLen ov inp q c, q - c) := by simp [better, h]
      rw [hb]
      rcases ih (matchLen ov inp q c, q - c) with ⟨h1, h2⟩ | ⟨l1, e, l2, h1, h2, h3, h4, h5⟩
      · exact .inr ⟨[], c, l, rfl, h1, h, by simp, h2⟩
      · refine .inr ⟨c :: l1, e, l2, by simp [h1], h2, by simp at h3; omega, fun e' he' => ?_, h5⟩
        rcases List.mem_cons.1 he' with he' | he'
        · subst he'; exact h3
        · exact h4 e' he'
    · have hb : better ov inp q b c = b := by simp [better, h]
      rw [hb]
      rcases ih b with ⟨h1, h2⟩ | ⟨l1, e, l2, h1, h2, h3, h4, h5⟩
      · refine .inl ⟨h1, fun e he => ?_⟩
        rcases List.mem_cons.1 he with he | he
        · subst he; omega
        · exact h2 e he
      · refine .inr ⟨c :: l1, e, l2, by simp [h1], h2, h3, fun e' he' => ?_, h5⟩
        rcases List.mem_cons.1 he' with he' | he'
        · subst he'; omega
        · exact h4 e' he'

/-- The candidates of a position lie in its window and in its key's list. -/
theorem mem_candidates {s : State} {q e : Nat} (h : e ∈ candidates s q) :
    ∃ w, key s.inp q = some w ∧ e ∈ Index.lookup w s.idx ∧ q - e ≤ window := by
  unfold candidates at h
  split at h
  · simp at h
  · next w hw =>
    have := List.mem_of_mem_take h
    rw [List.mem_filter, decide_eq_true_eq] at this
    exact ⟨w, hw, this.1, this.2⟩

/-- Everything the best reference can be: none, or the first of the longest candidates, of at least three bytes. -/
theorem bestRef_cases (s : State) (q : Nat) :
    bestRef s q = (0, 0) ∨
    (q + 3 ≤ s.inp.length ∧ ∃ l1 e l2, candidates s q = l1 ++ e :: l2 ∧
      bestRef s q = (matchLen s.cfg.overlapMatch s.inp q e, q - e) ∧ 3 ≤ matchLen s.cfg.overlapMatch s.inp q e ∧
      (∀ e' ∈ l1, matchLen s.cfg.overlapMatch s.inp q e' < matchLen s.cfg.overlapMatch s.inp q e) ∧
      ∀ e' ∈ l2, matchLen s.cfg.overlapMatch s.inp q e' ≤ matchLen s.cfg.overlapMatch s.inp q e) := by
  unfold bestRef
  split
  · exact .inl rfl
  · next hk =>
    rcases foldl_better_spec s.cfg.overlapMatch s.inp q (candidates s q) (0, 0) with ⟨h1, -⟩ | ⟨l1, e, l2, h1, h2, -, h4, h5⟩
    · simp [h1, minRef]
    · rw [h2]
      dsimp only
      split
      · next h => exact .inr ⟨by simp [keyLen] at hk; omega, l1, e, l2, h1, rfl, h, h4, h5⟩
      · exact .inl rfl

theorem bestRef_length_le (s : State) (q : Nat) : (bestRef s q).1 ≤ maxRef := by
  rcases bestRef_cases s q with h | ⟨-, l1, e, l2, h1, h2, -⟩
  · simp [h]
  · rw [h2]
    have := (matchCap_le s.cfg.overlapMatch s.inp q e).1
    obtain ⟨hc, -⟩ := commonLen_spec ((s.inp.drop e).take (matchCap s.cfg.overlapMatch s.inp q e)) (s.inp.drop q)
    simp only [List.length_take] at hc
    unfold matchLen
    dsimp only
    omega

/-- The best reference and the qualification read the parameters, the input and the index alone. -/
theorem bestRef_congr {s t : State} (h1 : s.cfg = t.cfg) (h2 : s.inp = t.inp) (h3 : s.idx = t.idx) (q : Nat) :
    bestRef s q = bestRef t q := by
  simp only [bestRef, candidates, h1, h2, h3]
  rfl

theorem qualifies_congr {s t : State} (h1 : s.cfg = t.cfg) (h2 : s.inp = t.inp) (h3 : s.idx = t.idx) (q : Nat) :
    qualifies s q = qualifies t q := by
  simp only [qualifies, bestRef_congr h1 h2 h3, h2]

theorem qualifies_eq_true_iff (s : State) (q : Nat) :
    qualifies s q = true ↔ 4 ≤ rleLen s.inp q ∨ 3 ≤ (bestRef s q).1 := by
  simp only [qualifies, Bool.or_eq_true, decide_eq_true_eq]
  rfl

end Sys2Proof.Machine
end

