-- ==== Sys2Proof/Laws/Decoder.lean ====
section
/-! SUPPORT. What the decoder's operations can do, once each: the append to OUT, each token's meaning, the fetch. -/

namespace Sys2Proof.Machine

/-- How many bytes a token appends. -/
def produced : Instr → Nat
  | .lit0 => 0
  | .lit bytes => bytes.length
  | .rle count _ => count
  | .ref length _ => length

theorem appendRun_eq (n : Nat) (v : Byte) (m : Memory) : appendRun n v m = m ++ List.replicate n v := rfl

/-- Whatever a token expands a sequence to is the sequence with the token's bytes appended. -/
theorem expand_append {i : Instr} {m m' : Memory} (h : expand i m = some m') :
    ∃ ext : List Byte, m' = m ++ ext ∧ ext.length = produced i := by
  cases i with
  | lit0 => exact ⟨[], by simpa [expand, eq_comm] using h, rfl⟩
  | lit d => exact ⟨d, by simpa [expand, eq_comm] using h, rfl⟩
  | rle n v => exact ⟨List.replicate n v, by simpa [expand, appendRun, eq_comm] using h, by simp [produced]⟩
  | ref l o =>
    simp only [expand] at h
    split at h
    · cases h
    · exact copyFrom_append h

/-- A token that is none of the references out of range expands every sequence. -/
theorem expand_isSome {i : Instr} {m : Memory} (h : ∀ l o, i = .ref l o → 1 ≤ o ∧ o ≤ m.length) :
    ∃ m', expand i m = some m' := by
  cases i with
  | lit0 => exact ⟨_, rfl⟩
  | lit d => exact ⟨_, rfl⟩
  | rle n v => exact ⟨_, rfl⟩
  | ref l o =>
    obtain ⟨h1, h2⟩ := h l o rfl
    obtain ⟨ext, he, -⟩ := copyFrom_spec l (m.length - o) m (by omega)
    exact ⟨_, by rw [expand, if_neg (by omega), he]⟩

/-- The append to OUT answers a next state exactly when OUT has room, and then changes OUT and `rp` alone. -/
theorem putOut_eq_next {m : Memory} {n : Nat} {s t : State} :
    putOut m n s = .next t ↔ fits s.cfg.outCapacity m.length = true ∧ t = { s with out := m, rp := s.rp + n } := by
  constructor
  · intro h
    unfold putOut at h
    split at h
    · next hf => cases h; exact ⟨hf, rfl⟩
    · cases h
  · rintro ⟨h, rfl⟩
    simp [putOut, h]

theorem putOut_of_fits {m : Memory} {n : Nat} {s : State} (h : fits s.cfg.outCapacity m.length = true) :
    putOut m n s = .next { s with out := m, rp := s.rp + n } := putOut_eq_next.2 ⟨h, rfl⟩

theorem putOut_of_not_fits {m : Memory} {n : Nat} {s : State} (h : fits s.cfg.outCapacity m.length = false) :
    putOut m n s = .fault .capacityExceeded := by simp [putOut, h]

/-- Everything LIT can do. -/
theorem execLit_cases (d : List Byte) (s : State) :
    (s.endp < s.rp + (1 + d.length) ∧ execLit d s = .next (aborted .truncated s)) ∨
    (s.rp + (1 + d.length) ≤ s.endp ∧ execLit d s = putOut (s.out ++ d) (1 + d.length) s) := by
  unfold execLit
  split
  · next h => exact .inl ⟨h, rfl⟩
  · next h => exact .inr ⟨by omega, rfl⟩

/-- Everything RLE can do. -/
theorem execRle_cases (n : Nat) (v : Byte) (s : State) :
    (s.endp < s.rp + 3 ∧ execRle n v s = .next (aborted .truncated s)) ∨
    (s.rp + 3 ≤ s.endp ∧ execRle n v s = putOut (s.out ++ List.replicate n v) 3 s) := by
  unfold execRle
  split
  · next h => exact .inl ⟨h, rfl⟩
  · next h => exact .inr ⟨by omega, rfl⟩

/-- Everything REF can do. -/
theorem execRef_cases (l o : Nat) (s : State) :
    (s.endp < s.rp + 2 ∧ execRef l o s = .next (aborted .truncated s)) ∨
    (s.rp + 2 ≤ s.endp ∧ s.out.length < o ∧ execRef l o s = .next (aborted .invalidOffset s)) ∨
    (s.rp + 2 ≤ s.endp ∧ o ≤ s.out.length ∧ copyFrom l (s.out.length - o) s.out = none ∧
      execRef l o s = .fault .noSuchByte) ∨
    (s.rp + 2 ≤ s.endp ∧ o ≤ s.out.length ∧ ∃ m, copyFrom l (s.out.length - o) s.out = some m ∧
      execRef l o s = putOut m 2 s) := by
  unfold execRef
  split
  · next h => exact .inl ⟨h, rfl⟩
  · next h =>
    split
    · next h' => exact .inr (.inl ⟨by omega, h', rfl⟩)
    · next h' =>
      split
      · next hc => exact .inr (.inr (.inl ⟨by omega, by omega, hc, rfl⟩))
      · next m hc => exact .inr (.inr (.inr ⟨by omega, by omega, m, hc, rfl⟩))

/-- A token whose bytes lie before `end`, that expands OUT within its capacity, has its effect. -/
theorem exec_of_expand {i : Instr} {s : State} {m : Memory} (h1 : s.rp + i.size ≤ s.endp)
    (h2 : expand i s.out = some m) (h3 : fits s.cfg.outCapacity m.length = true) :
    exec i s = .next { s with out := m, rp := s.rp + i.size } := by
  cases i with
  | lit0 => cases h2; rfl
  | lit d =>
    cases h2
    rw [exec, execLit, if_neg (by simp only [Instr.size] at h1; omega)]
    exact putOut_of_fits h3
  | rle n v =>
    cases h2
    rw [exec, execRle, if_neg (by simp only [Instr.size] at h1; omega)]
    exact putOut_of_fits h3
  | ref l o =>
    simp only [expand] at h2
    split at h2
    · cases h2
    · next ho =>
      rw [exec, execRef, if_neg (by simp only [Instr.size] at h1; omega), if_neg ho, h2]
      exact putOut_of_fits h3

/-- Everything the fetch can find. -/
theorem fetch_cases (s : State) :
    (s.orig.toNat ≤ s.out.length ∧ fetch s = .stop) ∨
    (s.out.length < s.orig.toNat ∧ s.endp ≤ s.rp ∧ fetch s = .raised .truncated) ∨
    (s.out.length < s.orig.toNat ∧ s.rp < s.endp ∧ s.c.length < s.endp ∧ fetch s = .broken) ∨
    (s.out.length < s.orig.toNat ∧ s.rp < s.endp ∧ s.endp ≤ s.c.length ∧
      ((∃ i rest, decode ((s.c.drop s.rp).take (s.endp - s.rp)) = .ok (i, rest) ∧ fetch s = .token i) ∨
       (∃ e, decode ((s.c.drop s.rp).take (s.endp - s.rp)) = .error e ∧ fetch s = .raised .truncated))) := by
  unfold fetch Memory.slice
  split
  · next h => exact .inl ⟨h, rfl⟩
  · next h =>
    split
    · next h' => exact .inr (.inl ⟨by omega, h', rfl⟩)
    · next h' =>
      by_cases hc : s.rp + (s.endp - s.rp) ≤ s.c.length
      · rw [if_pos hc]
        dsimp only
        split
        · next i rest hd => exact .inr (.inr (.inr ⟨by omega, by omega, by omega, .inl ⟨i, rest, hd, rfl⟩⟩))
        · next e hd => exact .inr (.inr (.inr ⟨by omega, by omega, by omega, .inr ⟨e, hd, rfl⟩⟩))
      · rw [if_neg hc]
        exact .inr (.inr (.inl ⟨by omega, by omega, by omega, rfl⟩))

/-- The bytes the fetch decodes, one by one. -/
theorem fetched_bytes (s : State) (h : s.rp < s.endp) (hc : s.endp ≤ s.c.length) :
    ∃ b0 rest, s.c[s.rp]? = some b0 ∧ (s.c.drop s.rp).take (s.endp - s.rp) = b0 :: rest ∧
      rest.length + 1 = s.endp - s.rp ∧ rest = (s.c.drop (s.rp + 1)).take (s.endp - s.rp - 1) ∧
      ∀ k, k < rest.length → rest[k]? = s.c[s.rp + 1 + k]? := by
  have hd : s.c.drop s.rp = s.c[s.rp] :: s.c.drop (s.rp + 1) := List.drop_eq_getElem_cons (by omega)
  refine ⟨s.c[s.rp], (s.c.drop (s.rp + 1)).take (s.endp - s.rp - 1), List.getElem?_eq_getElem _, ?_, ?_, rfl, ?_⟩
  · rw [hd, show s.endp - s.rp = (s.endp - s.rp - 1) + 1 by omega, List.take_succ_cons]
    rfl
  · simp
    omega
  · intro k hk
    simp only [List.length_take, List.length_drop] at hk
    rw [List.getElem?_take_of_lt (by omega), List.getElem?_drop]

/-- Everything a decoder step can be. -/
theorem decodeStep_cases (s : State) :
    (fetch s = .stop ∧ decodeStep s = .next (completed (s.out.take s.orig.toNat) s)) ∨
    (∃ e, fetch s = .raised e ∧ decodeStep s = .next (aborted e s)) ∨
    (fetch s = .broken ∧ decodeStep s = .fault .noSuchByte) ∨
    (∃ i, fetch s = .token i ∧ decodeStep s = exec i s) := by
  unfold decodeStep
  split
  · next h => exact .inl ⟨h, rfl⟩
  · next e h => exact .inr (.inl ⟨e, h, rfl⟩)
  · next h => exact .inr (.inr (.inl ⟨h, rfl⟩))
  · next i h => exact .inr (.inr (.inr ⟨i, h, rfl⟩))

/-- A step of a running DECOMPRESS is a decoder step. -/
theorem step_decompressing {s : State} (hp : s.port = none) (hm : s.mode = .decompressing) : step s = decodeStep s := by
  simp [step, hp, hm]

/-- A step of a running COMPRESS is an engine step or the command's end. -/
theorem step_compressing {s : State} (hp : s.port = none) (hm : s.mode = .compressing) : step s = compressStep s := by
  simp [step, hp, hm]

/-- A step that accepts a command. -/
theorem step_accept {s : State} {cmd : Command} (hp : s.port = some cmd) (hm : s.mode = .idle) :
    step s = accept cmd { s with port := none } := by
  simp [step, hp, hm]

/-- An idle step with no command. -/
theorem step_idle {s : State} (hp : s.port = none) (hm : s.mode = .idle) : step s = .next s := by
  simp [step, hp, hm]

/-- Everything a step that answers a next state can be: waiting, accepting a command, one step of a running command. -/
theorem step_cases {s t : State} (h : step s = .next t) :
    (s.port = none ∧ s.mode = .idle ∧ t = s) ∨
    (∃ cmd, s.port = some cmd ∧ s.mode = .idle ∧ accept cmd { s with port := none } = .next t) ∨
    (s.port = none ∧ s.mode = .compressing ∧ compressStep s = .next t) ∨
    (s.port = none ∧ s.mode = .decompressing ∧ decodeStep s = .next t) := by
  unfold step at h
  split at h
  · next h1 h2 => cases h; exact .inl ⟨h1, h2, rfl⟩
  · next cmd h1 h2 => exact .inr (.inl ⟨cmd, h1, h2, h⟩)
  · cases h
  · next h1 h2 => exact .inr (.inr (.inl ⟨h1, h2, h⟩))
  · next h1 h2 => exact .inr (.inr (.inr ⟨h1, h2, h⟩))

end Sys2Proof.Machine
end

