-- ==== Sys2Proof/Laws/Engine.lean ====
section
/-! SUPPORT. What the token encoder's and the match engine's operations can do, once each. -/

namespace Sys2Proof.Machine

/-! ### The token encoder -/

theorem putTok_eq (i : Instr) (s : State) : putTok i s = .next { s with tok := s.tok ++ encode i } := rfl

/-- The token encoder appends the token's bytes for a decision in range. -/
theorem emit_of_wellFormed {i : Instr} (s : State) (h : i.wellFormed = true) (h0 : i ≠ .lit0) :
    emit i s = .next { s with tok := s.tok ++ encode i } := by
  cases i with
  | lit0 => exact absurd rfl h0
  | lit d => simp only [emit, emitLit, h, if_true, putTok_eq]
  | rle n v => simp only [emit, emitRle, h, if_true, putTok_eq]
  | ref l o => simp only [emit, emitRef, h, if_true, putTok_eq]

/-- The token encoder faults for a decision out of range. -/
theorem emit_of_not_wellFormed {i : Instr} (s : State) (h : ¬(i.wellFormed = true)) :
    emit i s = .fault .encoderParamRange := by
  cases i with
  | lit0 => rfl
  | lit d => simp only [emit, emitLit, h, if_false, Bool.false_eq_true]
  | rle n v => simp only [emit, emitRle, h, if_false, Bool.false_eq_true]
  | ref l o => simp only [emit, emitRef, h, if_false, Bool.false_eq_true]

/-- Everything the token encoder can do. -/
theorem emit_cases (i : Instr) (s : State) :
    (i.wellFormed = true ∧ i ≠ .lit0 ∧ emit i s = .next { s with tok := s.tok ++ encode i }) ∨
    emit i s = .fault .encoderParamRange := by
  by_cases h : i.wellFormed = true
  · by_cases h0 : i = .lit0
    · subst h0; exact .inr rfl
    · exact .inl ⟨h, h0, emit_of_wellFormed s h h0⟩
  · exact .inr (emit_of_not_wellFormed s h)

/-! ### Appends to the dictionary -/

@[simp] theorem appendDictAll_nil (s : State) : appendDictAll [] s = s := rfl

theorem appendDictAll_cons (b : Byte) (bs : List Byte) (s : State) :
    appendDictAll (b :: bs) s = appendDictAll bs (appendDict b s) := rfl

theorem appendDictAll_append (a b : List Byte) (s : State) :
    appendDictAll (a ++ b) s = appendDictAll b (appendDictAll a s) := by simp [appendDictAll]

/-- Appends change the dictionary, by appending, and the index alone. -/
theorem appendDictAll_frame (bs : List Byte) : ∀ s : State, ∃ x : Index,
    appendDictAll bs s = { s with dict := s.dict ++ bs, idx := x } := by
  induction bs with
  | nil => intro s; exact ⟨s.idx, by simp⟩
  | cons b bs ih =>
    intro s
    obtain ⟨x, hx⟩ := ih (appendDict b s)
    exact ⟨x, by rw [appendDictAll_cons, hx]; simp [appendDict]⟩

@[simp] theorem appendDictAll_cfg (bs : List Byte) (s : State) : (appendDictAll bs s).cfg = s.cfg := by
  obtain ⟨x, h⟩ := appendDictAll_frame bs s; rw [h]

@[simp] theorem appendDictAll_port (bs : List Byte) (s : State) : (appendDictAll bs s).port = s.port := by
  obtain ⟨x, h⟩ := appendDictAll_frame bs s; rw [h]

@[simp] theorem appendDictAll_mode (bs : List Byte) (s : State) : (appendDictAll bs s).mode = s.mode := by
  obtain ⟨x, h⟩ := appendDictAll_frame bs s; rw [h]

@[simp] theorem appendDictAll_status (bs : List Byte) (s : State) : (appendDictAll bs s).status = s.status := by
  obtain ⟨x, h⟩ := appendDictAll_frame bs s; rw [h]

@[simp] theorem appendDictAll_result (bs : List Byte) (s : State) : (appendDictAll bs s).result = s.result := by
  obtain ⟨x, h⟩ := appendDictAll_frame bs s; rw [h]

@[simp] theorem appendDictAll_inp (bs : List Byte) (s : State) : (appendDictAll bs s).inp = s.inp := by
  obtain ⟨x, h⟩ := appendDictAll_frame bs s; rw [h]

@[simp] theorem appendDictAll_pos (bs : List Byte) (s : State) : (appendDictAll bs s).pos = s.pos := by
  obtain ⟨x, h⟩ := appendDictAll_frame bs s; rw [h]

@[simp] theorem appendDictAll_dict (bs : List Byte) (s : State) : (appendDictAll bs s).dict = s.dict ++ bs := by
  obtain ⟨x, h⟩ := appendDictAll_frame bs s; rw [h]

@[simp] theorem appendDictAll_tok (bs : List Byte) (s : State) : (appendDictAll bs s).tok = s.tok := by
  obtain ⟨x, h⟩ := appendDictAll_frame bs s; rw [h]

@[simp] theorem appendDictAll_c (bs : List Byte) (s : State) : (appendDictAll bs s).c = s.c := by
  obtain ⟨x, h⟩ := appendDictAll_frame bs s; rw [h]

@[simp] theorem appendDictAll_out (bs : List Byte) (s : State) : (appendDictAll bs s).out = s.out := by
  obtain ⟨x, h⟩ := appendDictAll_frame bs s; rw [h]

/-- The index after appends depends on the parameters, the input, the dictionary's length and the index alone. -/
theorem appendDictAll_idx_congr (bs : List Byte) : ∀ {s t : State}, s.cfg = t.cfg → s.inp = t.inp →
    s.dict.length = t.dict.length → s.idx = t.idx → (appendDictAll bs s).idx = (appendDictAll bs t).idx := by
  induction bs with
  | nil => intro s t _ _ _ h; exact h
  | cons b bs ih =>
    intro s t h1 h2 h3 h4
    exact ih (by simpa using h1) (by simpa using h2) (by simp [h3]) (by simp [h1, h2, h3, h4])

/-- Appends and a token appended to TOK commute. -/
theorem appendDictAll_tok_comm (bs : List Byte) (s : State) (k : Memory) :
    appendDictAll bs { s with tok := k } = { appendDictAll bs s with tok := k } := by
  induction bs generalizing s with
  | nil => rfl
  | cons b bs ih => exact ih (appendDict b s)

/-- `r` appends of one byte. -/
theorem appendDictRun_eq (v : Byte) (r : Nat) : ∀ s : State,
    appendDictRun v r s = appendDictAll (List.replicate r v) s := by
  induction r with
  | zero => intro s; rfl
  | succ r ih => intro s; exact ih (appendDict v s)

/-- The dictionary copy is the copy of the dictionary's bytes, appended one at a time. -/
theorem appendDictCopy_eq (n : Nat) : ∀ (src : Nat) (s : State) (ext : List Byte),
    copyFrom n src s.dict = some (s.dict ++ ext) → appendDictCopy n src s = some (appendDictAll ext s) := by
  induction n with
  | zero =>
    intro src s ext h
    have : ext = [] := by simpa [copyFrom] using h
    subst this
    rfl
  | succ n ih =>
    intro src s ext h
    have hs := copyFrom_src h
    have hr : Memory.read s.dict src = some s.dict[src] := List.getElem?_eq_getElem hs
    simp only [copyFrom, hr] at h
    obtain ⟨e, he, -⟩ := copyFrom_append h
    obtain rfl : ext = s.dict[src] :: e := by simpa using he
    simp only [appendDictCopy, hr]
    exact ih (src + 1) (appendDict s.dict[src] s) e (by simpa using h)

/-- A dictionary copy that answers is an append of the bytes it read. -/
theorem appendDictCopy_some (n : Nat) : ∀ {src : Nat} {s t : State}, appendDictCopy n src s = some t →
    ∃ ext : List Byte, ext.length = n ∧ t = appendDictAll ext s := by
  induction n with
  | zero => intro src s t h; cases h; exact ⟨[], rfl, rfl⟩
  | succ n ih =>
    intro src s t h
    simp only [appendDictCopy] at h
    split at h
    · cases h
    · next b _ =>
      obtain ⟨ext, h1, h2⟩ := ih h
      exact ⟨b :: ext, by simp [h1], h2⟩

/-! ### The literal's growth -/

/-- Everything the growth of a literal can do from `len` accepted bytes: it accepts the bytes of the input in order
while the position after them does not qualify, and stops at the limit, at the input's end or where one qualifies. -/
theorem growLoop_spec (fuel : Nat) : ∀ (len : Nat) (s : State), s.pos + len ≤ s.inp.length →
    ∃ n, n ≤ fuel ∧ s.pos + len + n ≤ s.inp.length ∧
      growLoop fuel len s = (len + n, appendDictAll ((s.inp.drop (s.pos + len)).take n) s) ∧
      (∀ j, j < n → qualifies (appendDictAll ((s.inp.drop (s.pos + len)).take j) s) (s.pos + len + j) = false) ∧
      (n = fuel ∨ s.pos + len + n = s.inp.length ∨
        qualifies (appendDictAll ((s.inp.drop (s.pos + len)).take n) s) (s.pos + len + n) = true) := by
  induction fuel with
  | zero => intro len s h; exact ⟨0, by simp, by omega, by simp [growLoop], by omega, .inl rfl⟩
  | succ fuel ih =>
    intro len s h
    by_cases he : s.pos + len = s.inp.length
    · refine ⟨0, by omega, by omega, ?_, by omega, .inr (.inl (by omega))⟩
      simp [growLoop, he]
    · have hlt : s.pos + len < s.inp.length := by omega
      have hr : Memory.read s.inp (s.pos + len) = some s.inp[s.pos + len] := List.getElem?_eq_getElem hlt
      by_cases hq : qualifies s (s.pos + len) = true
      · exact ⟨0, by omega, by omega, by rw [growLoop, hr]; simp [hq], by omega, .inr (.inr (by simpa using hq))⟩
      · obtain ⟨n, h1, h2, h3, h4, h5⟩ := ih (len + 1) (appendDict s.inp[s.pos + len] s) (by simp; omega)
        simp only [appendDict_pos, appendDict_inp] at h2 h3 h4 h5
        have hd : ∀ k, (s.inp.drop (s.pos + len)).take (k + 1) =
            s.inp[s.pos + len] :: (s.inp.drop (s.pos + (len + 1))).take k := by
          intro k
          rw [List.drop_eq_getElem_cons hlt, List.take_succ_cons]
          rfl
        refine ⟨n + 1, by omega, by omega, ?_, fun j hj => ?_, ?_⟩
        · rw [growLoop, hr]
          simp only [hq, if_false, Bool.false_eq_true]
          rw [h3, hd, appendDictAll_cons, show len + 1 + n = len + (n + 1) by omega]
        · cases j with
          | zero => simpa using hq
          | succ j =>
            have := h4 j (by omega)
            rw [hd, appendDictAll_cons, show s.pos + len + (j + 1) = s.pos + (len + 1) + j by omega]
            exact this
        · rw [hd, appendDictAll_cons, show s.pos + len + (n + 1) = s.pos + (len + 1) + n by omega]
          rcases h5 with h5 | h5 | h5
          · exact .inl (by omega)
          · exact .inr (.inl h5)
          · exact .inr (.inr h5)

/-- Everything the growth of a literal can do from the byte at `pos`. -/
theorem growLiteral_spec {s : State} {v : Byte} (hv : s.inp[s.pos]? = some v) :
    ∃ n, 1 ≤ n ∧ n ≤ 63 ∧ s.pos + n ≤ s.inp.length ∧
      growLiteral v s = (n, appendDictAll ((s.inp.drop s.pos).take n) s) ∧
      (∀ j, 1 ≤ j → j < n → qualifies (appendDictAll ((s.inp.drop s.pos).take j) s) (s.pos + j) = false) ∧
      (n = 63 ∨ s.pos + n = s.inp.length ∨
        qualifies (appendDictAll ((s.inp.drop s.pos).take n) s) (s.pos + n) = true) := by
  obtain ⟨hlt, hv'⟩ := List.getElem?_eq_some_iff.1 hv
  obtain ⟨n, h1, h2, h3, h4, h5⟩ := growLoop_spec 62 1 (appendDict v s) (by simp; omega)
  simp only [appendDict_pos, appendDict_inp] at h2 h3 h4 h5
  have hd : ∀ k, (s.inp.drop s.pos).take (k + 1) = v :: (s.inp.drop (s.pos + 1)).take k := by
    intro k
    rw [List.drop_eq_getElem_cons hlt, List.take_succ_cons, hv']
  refine ⟨n + 1, by omega, by omega, by omega, ?_, fun j hj1 hj2 => ?_, ?_⟩
  · rw [hd, appendDictAll_cons, Nat.add_comm n 1]
    exact h3
  · obtain ⟨j, rfl⟩ : ∃ k, j = k + 1 := ⟨j - 1, by omega⟩
    rw [hd, appendDictAll_cons, show s.pos + (j + 1) = s.pos + 1 + j by omega]
    exact h4 j (by omega)
  · rw [hd, appendDictAll_cons, show s.pos + (n + 1) = s.pos + 1 + n by omega]
    rcases h5 with h5 | h5 | h5
    · exact .inl (by omega)
    · exact .inr (.inl h5)
    · exact .inr (.inr h5)

/-! ### One append and the index -/

theorem wf_indexAppend {k : Config} {inp : Memory} {p : Nat} {x : Index} (hx : Index.wf x = true) :
    Index.wf (indexAppend k inp p x) = true := by
  unfold indexAppend
  split
  · exact wf_evict hx
  · next w hw => exact wf_evict (wf_insert (key_lt hw) hx)

/-- The lists of an index after one append. -/
theorem lookup_indexAppend {k : Config} {inp : Memory} {p : Nat} {x : Index} (hx : Index.wf x = true) (w : Nat) :
    Index.lookup w (indexAppend k inp p x) =
      (if key inp p = some w then capList k.maxCandidates (p :: Index.lookup w x) else Index.lookup w x).filter
        fun e => decide (p + 1 - e ≤ window) := by
  unfold indexAppend
  split
  · next h => rw [lookup_evict hx, h, if_neg (by simp)]
  · next w' h =>
    rw [lookup_evict (wf_insert (key_lt h) hx), Index.insert, lookup_put hx, h]
    by_cases hw : w = w'
    · subst hw; simp
    · rw [if_neg hw, if_neg (by simpa [eq_comm] using hw)]

/-- The invariant of the index, said of what its keys look up. -/
theorem indexInv_iff (k : Config) (inp : Memory) (n : Nat) (x : Index) :
    IndexInv k inp n x ↔ Index.wf x = true ∧ ∀ w, (Index.lookup w x).length ≤ k.maxCandidates ∧
      (Index.lookup w x).Pairwise (fun a b => b < a) ∧
      ∀ p ∈ Index.lookup w x, p < n ∧ n - p ≤ window ∧ key inp p = some w := by
  constructor
  · rintro ⟨hx, h⟩
    refine ⟨hx, fun w => ?_⟩
    by_cases hw : Index.lookup w x = []
    · simp [hw]
    · exact h _ (mem_of_lookup hw)
  · rintro ⟨hx, h⟩
    refine ⟨hx, fun e he => ?_⟩
    have := h e.1
    rw [lookup_of_mem hx (show (e.1, e.2) ∈ x from he)] at this
    exact this

/-- One append keeps the index's invariant. -/
theorem indexInv_append {k : Config} {inp : Memory} {p : Nat} {x : Index} (h : IndexInv k inp p x) :
    IndexInv k inp (p + 1) (indexAppend k inp p x) := by
  rw [indexInv_iff] at h ⊢
  obtain ⟨hx, h⟩ := h
  refine ⟨wf_indexAppend hx, fun w => ?_⟩
  obtain ⟨h1, h2, h3⟩ := h w
  rw [lookup_indexAppend hx]
  refine ⟨?_, ?_, ?_⟩
  · refine (List.length_filter_le _ _).trans ?_
    split
    · rw [capList_cons h1]
      simp
    · exact h1
  · refine List.Pairwise.sublist List.filter_sublist ?_
    split
    · refine List.Pairwise.sublist (capList_prefix _ _).sublist (List.pairwise_cons.2 ⟨fun e he => ?_, h2⟩)
      exact (h3 e he).1
    · exact h2
  · intro e he
    rw [List.mem_filter, decide_eq_true_eq] at he
    obtain ⟨he, hwin⟩ := he
    split at he
    · next hk =>
      rcases List.mem_cons.1 ((capList_prefix _ _).subset he) with he | he
      · subst he; exact ⟨by omega, hwin, hk⟩
      · obtain ⟨a, -, c⟩ := h3 e he; exact ⟨by omega, hwin, c⟩
    · obtain ⟨a, -, c⟩ := h3 e he
      exact ⟨by omega, hwin, c⟩

/-- Appends keep the index's invariant. -/
theorem indexInv_appendAll (bs : List Byte) : ∀ {s : State} {n : Nat}, s.dict.length = n →
    IndexInv s.cfg s.inp n s.idx → IndexInv s.cfg s.inp (n + bs.length) (appendDictAll bs s).idx := by
  induction bs with
  | nil => intro s n _ h; exact h
  | cons b bs ih =>
    intro s n hn h
    subst hn
    have := ih (s := appendDict b s) (n := s.dict.length + 1) (by simp) (indexInv_append h)
    rw [List.length_cons, appendDictAll_cons, show s.dict.length + (bs.length + 1) = s.dict.length + 1 + bs.length by omega]
    exact this

/-- The positions of a key one append later: the new one, if it has the key, and the old ones still in the window. -/
theorem positions_succ (inp : Memory) (w p : Nat) :
    positions inp w (p + 1) =
      (if key inp p = some w then p :: positions inp w p else positions inp w p).filter
        fun e => decide (p + 1 - e ≤ window) := by
  unfold positions
  rw [List.range_succ, List.reverse_append, List.reverse_singleton, List.singleton_append, List.filter_cons]
  have hrest : (List.range p).reverse.filter (fun e => decide (key inp e = some w) && decide (p + 1 - e ≤ window)) =
      ((List.range p).reverse.filter fun e => decide (key inp e = some w) && decide (p - e ≤ window)).filter
        fun e => decide (p + 1 - e ≤ window) := by
    rw [List.filter_filter]
    refine List.filter_congr fun e he => ?_
    by_cases h1 : key inp e = some w <;> by_cases h2 : p + 1 - e ≤ window <;> simp [h1, h2]
    omega
  rw [hrest]
  by_cases h : key inp p = some w
  · simp [h, window]
  · simp [h]

theorem positions_sorted (inp : Memory) (w q : Nat) : (positions inp w q).Pairwise fun a b => b < a := by
  refine List.Pairwise.sublist List.filter_sublist ?_
  rw [List.pairwise_reverse]
  exact List.pairwise_lt_range

/-- In a falling list the positions in the window of `n` are a front part, so the cap and the window commute. -/
theorem filter_take_falling (n m : Nat) (l : List Nat) (h : l.Pairwise fun a b => b < a) :
    (l.take m).filter (fun e => decide (n - e ≤ window)) = (l.filter fun e => decide (n - e ≤ window)).take m := by
  induction l generalizing m with
  | nil => simp
  | cons a l ih =>
    obtain ⟨h1, h2⟩ := List.pairwise_cons.1 h
    cases m with
    | zero => simp
    | succ m =>
      rw [List.take_succ_cons, List.filter_cons, List.filter_cons]
      by_cases hc : n - a ≤ window
      · rw [if_pos (by simpa using hc), if_pos (by simpa using hc), List.take_succ_cons, ih m h2]
      · have hn : ∀ e ∈ l, ¬ n - e ≤ window := fun e he => by have := h1 e he; omega
        have e1 : l.filter (fun e => decide (n - e ≤ window)) = [] := by
          rw [List.filter_eq_nil_iff]; intro e he; simpa using hn e he
        have e2 : (l.take m).filter (fun e => decide (n - e ≤ window)) = [] := by
          rw [List.filter_eq_nil_iff]; intro e he; simpa using hn e (List.mem_of_mem_take he)
        rw [if_neg (by simpa using hc), if_neg (by simpa using hc), e1, e2, List.take_nil]

/-- One append keeps the index the function of the input it is. -/
theorem indexExact_append {k : Config} {inp : Memory} {p : Nat} {x : Index} (hx : Index.wf x = true)
    (h : IndexExact k inp p x) : IndexExact k inp (p + 1) (indexAppend k inp p x) := by
  intro w
  have hs := positions_sorted inp w p
  have hlt : ∀ e ∈ positions inp w p, e < p := by
    intro e he
    simpa using (List.mem_filter.1 he).1
  rw [lookup_indexAppend hx, positions_succ, h w]
  split
  · rw [capList_cons (by simp), ← filter_take_falling (p + 1) _ _ (List.pairwise_cons.2 ⟨hlt, hs⟩)]
    congr 1
    cases k.maxCandidates with
    | zero => rfl
    | succ m => rw [List.take_succ_cons, List.take_succ_cons, List.take_take, Nat.min_eq_left (by omega)]
  · rw [filter_take_falling _ _ _ hs]

/-- Appends keep the index the function of the input it is. -/
theorem indexExact_appendAll (bs : List Byte) : ∀ {s : State} {n : Nat}, s.dict.length = n → Index.wf s.idx = true →
    IndexExact s.cfg s.inp n s.idx → IndexExact s.cfg s.inp (n + bs.length) (appendDictAll bs s).idx := by
  induction bs with
  | nil => intro s n _ _ h; exact h
  | cons b bs ih =>
    intro s n hn hx h
    subst hn
    have := ih (s := appendDict b s) (n := s.dict.length + 1) (by simp) (wf_indexAppend hx) (indexExact_append hx h)
    rw [List.length_cons, appendDictAll_cons, show s.dict.length + (bs.length + 1) = s.dict.length + 1 + bs.length by omega]
    exact this

end Sys2Proof.Machine
end

