-- ==== Sys2Proof/Laws/Assembler.lean ====
section
/-! SUPPORT. What the engine's three decisions and the two commands' first and last steps can do, once each. -/

namespace Sys2Proof.Machine

/-- The state after a decision: the bytes `bs` in the dictionary and the index, the token `i` in TOK, `pos` past them. -/
def afterDecision (i : Instr) (bs : List Byte) (s : State) : State :=
  { appendDictAll bs s with pos := s.pos + bs.length, tok := s.tok ++ encode i }

/-- An RLE decision in range. -/
theorem decideRle_eq {r : Nat} (v : Byte) (s : State) (h1 : 4 ≤ r) (h2 : r ≤ 16387) :
    decideRle r v s = .next (afterDecision (.rle r v) (List.replicate r v) s) := by
  rw [decideRle, emit_of_wellFormed s ((wellFormed_rle r v).2 ⟨h1, h2⟩) (by simp), onNext_next, appendDictRun_eq,
    appendDictAll_tok_comm, advance, afterDecision]
  simp

/-- A reference decision in range whose copy is there. -/
theorem decideRef_eq {bl bo : Nat} {s : State} {ext : List Byte} (h : (Instr.ref bl bo).wellFormed = true)
    (hc : copyFrom bl (s.pos - bo) s.dict = some (s.dict ++ ext)) :
    decideRef bl bo s = .next (afterDecision (.ref bl bo) ext s) := by
  have hl : ext.length = bl := by
    obtain ⟨e, h1, h2⟩ := copyFrom_append hc
    rw [List.append_cancel_left h1, h2]
  rw [decideRef, emit_of_wellFormed s h (by simp), onNext_next,
    appendDictCopy_eq bl (s.pos - bo) { s with tok := s.tok ++ encode (.ref bl bo) } ext hc]
  dsimp only
  rw [appendDictAll_tok_comm, advance, afterDecision]
  simp [hl]

/-- A literal decision. -/
theorem decideLit_eq {s : State} {v : Byte} (hv : s.inp[s.pos]? = some v) :
    ∃ n, 1 ≤ n ∧ n ≤ 63 ∧ s.pos + n ≤ s.inp.length ∧
      (∀ j, 1 ≤ j → j < n → qualifies (appendDictAll ((s.inp.drop s.pos).take j) s) (s.pos + j) = false) ∧
      (n = 63 ∨ s.pos + n = s.inp.length ∨
        qualifies (appendDictAll ((s.inp.drop s.pos).take n) s) (s.pos + n) = true) ∧
      decideLit v s =
        .next (afterDecision (.lit ((s.inp.drop s.pos).take n)) ((s.inp.drop s.pos).take n) s) := by
  obtain ⟨n, h1, h2, h3, h4, h5, h6⟩ := growLiteral_spec hv
  have hl : ((s.inp.drop s.pos).take n).length = n := by simp; omega
  refine ⟨n, h1, h2, h3, h5, h6, ?_⟩
  rw [decideLit, h4]
  dsimp only
  rw [appendDictAll_inp, appendDictAll_pos,
    emit_of_wellFormed _ ((wellFormed_lit _).2 ⟨by omega, by omega⟩) (by simp), onNext_next, advance, afterDecision]
  simp only [appendDictAll_tok, appendDictAll_pos, hl]

/-- Everything an engine step at a byte can be: the decision and its precedence (41_match_engine R150). -/
theorem engineStep_cases {s : State} {v : Byte} (hv : s.inp[s.pos]? = some v) :
    (4 ≤ rleLen s.inp s.pos ∧ (bestRef s s.pos).1 ≤ rleLen s.inp s.pos ∧
      engineStep s = decideRle (rleLen s.inp s.pos) v s) ∨
    (¬(4 ≤ rleLen s.inp s.pos ∧ (bestRef s s.pos).1 ≤ rleLen s.inp s.pos) ∧ 3 ≤ (bestRef s s.pos).1 ∧
      engineStep s = decideRef (bestRef s s.pos).1 (bestRef s s.pos).2 s) ∨
    (¬(4 ≤ rleLen s.inp s.pos ∧ (bestRef s s.pos).1 ≤ rleLen s.inp s.pos) ∧ (bestRef s s.pos).1 < 3 ∧
      engineStep s = decideLit v s) := by
  have hr : Memory.read s.inp s.pos = some v := hv
  unfold engineStep
  rw [hr]
  dsimp only
  split
  · next h => exact .inl ⟨h.1, h.2, rfl⟩
  · next h =>
    split
    · next h' => exact .inr (.inl ⟨h, h', rfl⟩)
    · next h' => exact .inr (.inr ⟨h, by simp only [minRef] at h'; omega, rfl⟩)

/-- What a reference that qualifies is, where the index keeps its invariant: in range, and its source holds the bytes at
`q` (41_match_engine R161 to R163). -/
theorem bestRef_sound {s : State} {q : Nat} (hi : IndexInv s.cfg s.inp q s.idx) (h : 3 ≤ (bestRef s q).1) :
    (Instr.ref (bestRef s q).1 (bestRef s q).2).wellFormed = true ∧ (bestRef s q).2 ≤ q ∧
    q + (bestRef s q).1 ≤ s.inp.length ∧
    ∀ i, i < (bestRef s q).1 → s.inp[q - (bestRef s q).2 + i]? = s.inp[q + i]? := by
  have hle := bestRef_length_le s q
  rcases bestRef_cases s q with h0 | ⟨hq, l1, e, l2, h1, h2, h3, -, -⟩
  · rw [h0] at h; simp at h
  · obtain ⟨w, hw, he, hwin⟩ := mem_candidates (show e ∈ candidates s q by simp [h1])
    obtain ⟨-, hix⟩ := (indexInv_iff _ _ _ _).1 hi
    obtain ⟨hlt, -, -⟩ := (hix w).2.2 e he
    obtain ⟨m1, m2, -⟩ := matchLen_spec s.cfg.overlapMatch s.inp q e hlt
    obtain ⟨-, hc, -⟩ := matchCap_le s.cfg.overlapMatch s.inp q e
    rw [h2] at hle ⊢
    simp only [maxRef, window] at *
    rw [wellFormed_ref]
    refine ⟨⟨h3, hle, by omega, hwin⟩, by omega, by omega, fun i hi' => ?_⟩
    rw [show q - (q - e) = e by omega]
    exact m2 i hi'

/-- Whatever state an engine step answers is the state after a decision (41_match_engine R142, R159). -/
theorem engineStep_next {s t : State} (h : engineStep s = .next t) :
    ∃ (i : Instr) (bs : List Byte), t = afterDecision i bs s := by
  cases hv : s.inp[s.pos]? with
  | none => rw [engineStep, read_eq, hv] at h; cases h
  | some v =>
    obtain ⟨h1, h2, g⟩ | ⟨h1, h2, g⟩ | ⟨h1, h2, g⟩ := engineStep_cases hv
    · rw [g, decideRle_eq _ _ h1 (rleLen_spec s.inp s.pos (List.getElem?_eq_some_iff.1 hv).1).2.1] at h
      cases h
      exact ⟨_, _, rfl⟩
    · rw [g, decideRef] at h
      obtain ⟨-, -, he⟩ | he := emit_cases (.ref (bestRef s s.pos).1 (bestRef s s.pos).2) s
      · rw [he, onNext_next] at h
        split at h
        · cases h
        · next s2 hs =>
          obtain ⟨ext, hl, rfl⟩ := appendDictCopy_some _ hs
          cases h
          refine ⟨.ref (bestRef s s.pos).1 (bestRef s s.pos).2, ext, ?_⟩
          rw [appendDictAll_tok_comm, advance, afterDecision, hl]
          simp
      · rw [he] at h; cases h
    · obtain ⟨n, -, -, -, -, -, g'⟩ := decideLit_eq hv
      rw [g, g'] at h
      cases h
      exact ⟨_, _, rfl⟩

/-- What an engine step does at a byte of the input, where the invariant of a running COMPRESS holds: it appends to the
dictionary the next bytes of the input, at least one, and to TOK a token in range that stands for them. -/
theorem engineStep_sound {s : State} (hi : CompressInv s) (hlt : s.pos < s.inp.length) :
    ∃ (i : Instr) (n : Nat), i.wellFormed = true ∧ i ≠ .lit0 ∧ 1 ≤ n ∧ s.pos + n ≤ s.inp.length ∧
      expand i s.dict = some (s.dict ++ (s.inp.drop s.pos).take n) ∧
      engineStep s = .next (afterDecision i ((s.inp.drop s.pos).take n) s) := by
  obtain ⟨-, -, -, hd, hx⟩ := hi
  have hv : s.inp[s.pos]? = some s.inp[s.pos] := List.getElem?_eq_getElem hlt
  obtain ⟨h1, h2, h⟩ | ⟨h1, h2, h⟩ | ⟨h1, h2, h⟩ := engineStep_cases hv
  · obtain ⟨-, r2, r3, -, -⟩ := rleLen_spec s.inp s.pos hlt
    have hw : (Instr.rle (rleLen s.inp s.pos) s.inp[s.pos]).wellFormed = true := (wellFormed_rle _ _).2 ⟨h1, r2⟩
    refine ⟨.rle (rleLen s.inp s.pos) s.inp[s.pos], rleLen s.inp s.pos, hw, by simp, by omega, r3, ?_, ?_⟩
    · rw [take_rleLen hv]; rfl
    · rw [h, decideRle_eq _ _ h1 r2, take_rleLen hv]
  · obtain ⟨b1, b2, b3, b4⟩ := bestRef_sound hx h2
    have ho : 1 ≤ (bestRef s s.pos).2 := ((wellFormed_ref _ _).1 b1).2.2.1
    have hl : s.dict.length = s.pos := by rw [hd]; simp; omega
    have hc : copyFrom (bestRef s s.pos).1 (s.pos - (bestRef s s.pos).2) s.dict =
        some (s.dict ++ (s.inp.drop s.pos).take (bestRef s s.pos).1) := by
      rw [hd, copyFrom_take _ _ _ _ (by omega) b3 b4, List.take_add]
    refine ⟨.ref (bestRef s s.pos).1 (bestRef s s.pos).2, (bestRef s s.pos).1, b1, by simp, by omega, b3, ?_, ?_⟩
    · rw [expand, if_neg (by omega), hl, hc]
    · rw [h, decideRef_eq b1 hc]
  · obtain ⟨n, n1, n2, n3, -, -, n4⟩ := decideLit_eq hv
    have hl : ((s.inp.drop s.pos).take n).length = n := by simp; omega
    refine ⟨.lit ((s.inp.drop s.pos).take n), n, (wellFormed_lit _).2 ⟨by omega, by omega⟩, by simp, n1, n3, rfl, ?_⟩
    rw [h, n4]

/-- The invariant of a running COMPRESS after such a step. -/
theorem compressInv_afterDecision {s : State} {i : Instr} {n : Nat} (hi : CompressInv s)
    (hn : s.pos + n ≤ s.inp.length) : CompressInv (afterDecision i ((s.inp.drop s.pos).take n) s) := by
  obtain ⟨h1, h2, h3, h4, h5⟩ := hi
  have hl : ((s.inp.drop s.pos).take n).length = n := by simp; omega
  have hd : s.dict.length = s.pos := by rw [h4]; simp; omega
  have hx := indexInv_appendAll ((s.inp.drop s.pos).take n) hd h5
  simp only [hl] at hx
  simp only [CompressInv, afterDecision, appendDictAll_inp, appendDictAll_cfg, appendDictAll_dict, hl]
  refine ⟨h1, h2, hn, ?_, hx⟩
  rw [h4, List.take_add]

/-- Everything the start of COMPRESS can do. -/
theorem startCompress_cases (d : List Byte) (s : State) :
    (sizeLimit ≤ d.length ∧ startCompress d s =
      .next (aborted .tooLarge { s with mode := .compressing, inp := d, pos := 0, dict := [], idx := [], tok := [] })) ∨
    (d.length < sizeLimit ∧ fits s.cfg.inCapacity d.length = true ∧ startCompress d s =
      .next { s with mode := .compressing, inp := d, pos := 0, dict := [], idx := [], tok := [] }) ∨
    (d.length < sizeLimit ∧ fits s.cfg.inCapacity d.length = false ∧
      startCompress d s = .fault .capacityExceeded) := by
  unfold startCompress
  split
  · next h => exact .inl ⟨h, rfl⟩
  · next h =>
    split
    · next h' => exact .inr (.inl ⟨by omega, h', rfl⟩)
    · next h' => exact .inr (.inr ⟨by omega, by simpa using h', rfl⟩)

/-- Everything the start of DECOMPRESS can do; it never faults. -/
theorem startDecompress_cases (d : List Byte) (s : State) :
    (d.length < 16 ∧ startDecompress d s =
      .next (aborted .truncated { s with mode := .decompressing, c := d, out := [] })) ∨
    (16 ≤ d.length ∧ d.take 8 ≠ magic ∧ startDecompress d s =
      .next (aborted .badMagic { s with mode := .decompressing, c := d, out := [] })) ∨
    (16 ≤ d.length ∧ d.take 8 = magic ∧ ∃ o p, le32 d 8 = some o ∧ le32 d 12 = some p ∧ startDecompress d s =
      .next { s with mode := .decompressing, c := d, out := [], orig := o, psize := p,
                     endp := payloadEnd s.cfg d.length p, rp := 16 }) := by
  unfold startDecompress
  split
  · next h => exact .inl ⟨h, rfl⟩
  · next h =>
    have h' : 16 ≤ d.length := by simp only [headerSize] at h; omega
    split
    · next hm => exact .inr (.inl ⟨h', hm, rfl⟩)
    · next hm =>
      obtain ⟨o, ho⟩ := le32_isSome d 8 (by omega)
      obtain ⟨p, hp⟩ := le32_isSome d 12 (by omega)
      rw [ho, hp]
      exact .inr (.inr ⟨h', by simpa using hm, o, p, rfl, rfl, rfl⟩)

/-- Everything the end of COMPRESS can do. -/
theorem finishCompress_cases (s : State) :
    (sizeLimit ≤ (padded s.tok).length ∧ finishCompress s = .next (aborted .tooLarge s)) ∨
    ((padded s.tok).length < sizeLimit ∧
      finishCompress s = .next (completed (container s.inp.length s.tok) s)) := by
  unfold finishCompress
  split
  · next h => exact .inl ⟨h, rfl⟩
  · next h => exact .inr ⟨by omega, rfl⟩

theorem payloadEnd_le (k : Config) (m : Nat) (p : U32) : payloadEnd k m p ≤ m := by
  unfold payloadEnd
  split
  · exact Nat.le_refl m
  · exact Nat.min_le_left _ _

theorem headerSize_le_payloadEnd (k : Config) (m : Nat) (p : U32) (h : 16 ≤ m) : 16 ≤ payloadEnd k m p := by
  unfold payloadEnd
  split
  · exact h
  · simp only [headerSize]; omega

end Sys2Proof.Machine
end

