-- ==== Sys2Proof/Laws/PerInstr.lean ====
section
/-! SUPPORT. The per-instruction family EncodeSize: an encoding is as long as the token, and its first byte alone says
so (30_encoding R81). -/

namespace Sys2Proof.Laws

/-- The encoding of a token in range is its first byte and the bytes the first byte announces. -/
def EncodeSize.Statement (i : Instr) : Prop :=
  i.wellFormed = true → ∃ b0 tail, encode i = b0 :: tail ∧ tokenSize b0 = i.size ∧ tail.length + 1 = i.size

theorem EncodeSize.lit0 : EncodeSize.Statement .lit0 := fun _ => ⟨0x00#8, [], rfl, by decide, rfl⟩

theorem EncodeSize.lit (bytes : List Byte) : EncodeSize.Statement (.lit bytes) := by
  intro h
  rw [wellFormed_lit] at h
  have e : (BitVec.ofNat 8 bytes.length).toNat = bytes.length := by rw [BitVec.toNat_ofNat]; omega
  refine ⟨BitVec.ofNat 8 bytes.length, bytes, rfl, ?_, Nat.add_comm _ _⟩
  rw [tokenSize_eq, e, if_neg (by omega), if_neg (by omega)]
  rfl

theorem EncodeSize.rle (count : Nat) (value : Byte) : EncodeSize.Statement (.rle count value) := by
  intro h
  rw [wellFormed_rle] at h
  have e : (BitVec.ofNat 8 (64 + (count - 4) / 256)).toNat = 64 + (count - 4) / 256 := by
    rw [BitVec.toNat_ofNat]; omega
  refine ⟨_, _, encode_rle count value (by omega), ?_, rfl⟩
  rw [tokenSize_eq, e, if_neg (by omega), if_pos (by omega)]
  rfl

theorem EncodeSize.ref (length offset : Nat) : EncodeSize.Statement (.ref length offset) := by
  intro h
  rw [wellFormed_ref] at h
  have e : (BitVec.ofNat 8 (128 + (length - 3) * 8 + (offset - 1) / 256)).toNat =
      128 + (length - 3) * 8 + (offset - 1) / 256 := by
    rw [BitVec.toNat_ofNat]; omega
  refine ⟨_, _, encode_ref length offset (by omega) (by omega), ?_, rfl⟩
  rw [tokenSize_eq, e, if_pos (by omega)]
  rfl

end Sys2Proof.Laws
end

