-- ==== Sys2Proof/Laws/Run.lean ====
section
/-! SUPPORT. Runs of steps: how one step begins a run, that an ended command stays ended, and that its record is the only
one. -/

namespace Sys2Proof.Machine

@[simp] theorem run_zero (s : State) : run 0 s = .next s := rfl

theorem run_succ (k : Nat) (s : State) : run (k + 1) s = onNext (step s) (run k) := rfl

/-- The model's runs are the host's. -/
theorem run_eq_core (k : Nat) : ∀ s : State, run k s = Host.Core.run Sys2Proof.core k s := by
  induction k with
  | zero => intro s; rfl
  | succ k ih =>
    intro s
    cases h : step s with
    | next s' =>
      have h' : Sys2Proof.core.step s = .next s' := h
      rw [run_succ, h, onNext_next, ih s']
      simp only [Host.Core.run, h']
      rfl
    | fault r =>
      have h' : Sys2Proof.core.step s = .fault r := h
      rw [run_succ, h]
      simp only [Host.Core.run, h']
      rfl
    | refused r =>
      have h' : Sys2Proof.core.step s = .refused r := h
      rw [run_succ, h]
      simp only [Host.Core.run, h']
      rfl

/-- The first step of a run in which a command is presented to an idle machine. -/
theorem step_present {s : State} (hm : s.mode = .idle) (cmd : Command) :
    step { s with port := some cmd } = accept cmd { s with port := none } := by
  rw [step_accept (s := { s with port := some cmd }) rfl hm]

/-- The machine in `s` comes to rest in `t`: idle, with no command presented. -/
def EndsIn (s t : State) : Prop := ∃ k, run k s = .next t ∧ t.mode = .idle ∧ t.port = none

theorem returns_iff (cmd : Command) (s : State) (st : Status) (r : List Byte) :
    Returns cmd s st r ↔ ∃ t, EndsIn { s with port := some cmd } t ∧ t.record = (st, r) := by
  constructor
  · rintro ⟨k, t, h1, h2, h3, h4⟩; exact ⟨t, ⟨k, h1, h2, h3⟩, h4⟩
  · rintro ⟨t, ⟨k, h1, h2, h3⟩, h4⟩; exact ⟨k, t, h1, h2, h3, h4⟩

/-- A state at rest is where it ends. -/
theorem endsIn_refl {s : State} (hm : s.mode = .idle) (hp : s.port = none) : EndsIn s s := ⟨0, rfl, hm, hp⟩

/-- One step does not change where the machine ends. -/
theorem endsIn_step {s s' t : State} (h : step s = .next s') : EndsIn s t ↔ EndsIn s' t := by
  constructor
  · rintro ⟨k, h1, h2, h3⟩
    cases k with
    | zero =>
      cases h1
      rw [step_idle h3 h2] at h
      cases h
      exact ⟨0, rfl, h2, h3⟩
    | succ k => exact ⟨k, by rw [run_succ, h, onNext_next] at h1; exact h1, h2, h3⟩
  · rintro ⟨k, h1, h2, h3⟩
    exact ⟨k + 1, by rw [run_succ, h, onNext_next]; exact h1, h2, h3⟩

/-- A state at rest stays as it is. -/
theorem run_rest {s : State} (hm : s.mode = .idle) (hp : s.port = none) (k : Nat) : run k s = .next s := by
  induction k with
  | zero => rfl
  | succ k ih => rw [run_succ, step_idle hp hm, onNext_next, ih]

/-- The machine ends in one state only. -/
theorem endsIn_unique {s t t' : State} (h : EndsIn s t) (h' : EndsIn s t') : t = t' := by
  obtain ⟨k, h1, h2, h3⟩ := h
  induction k generalizing s with
  | zero =>
    cases h1
    obtain ⟨k', h1', -, -⟩ := h'
    rw [run_rest h2 h3] at h1'
    cases h1'
    rfl
  | succ k ih =>
    rw [run_succ, onNext_eq_next] at h1
    obtain ⟨s1, hs, hr⟩ := h1
    exact ih ((endsIn_step hs).1 h') hr

/-- What a command returns, it returns only so. -/
theorem returns_unique {cmd : Command} {s : State} {st st' : Status} {r r' : List Byte} (h : Returns cmd s st r)
    (h' : Returns cmd s st' r') : st = st' ∧ r = r' := by
  rw [returns_iff] at h h'
  obtain ⟨t, h1, h2⟩ := h
  obtain ⟨t', h1', h2'⟩ := h'
  rw [endsIn_unique h1 h1', h2'] at h2
  cases h2
  exact ⟨rfl, rfl⟩

end Sys2Proof.Machine
end

