-- ==== Sys2Proof/Tests/Slice0.lean ====
section
/-! SUPPORT. The model's own tests: the operand ranges of WellFormed, decoding of words taken from the spec's encodings
and test vectors (30_encoding, 95_test_vectors), single steps, and for every obligation with hypotheses a state and
operands that meet them. -/

namespace Sys2Proof.Tests

open Sys2Proof Sys2Proof.Machine

/-! ### WellFormed: each check refuses a term outside its range, and takes the ends of it (30_encoding R71, R75, R76) -/

theorem test_wf_lit_empty : (Instr.lit []).wellFormed = false := by decide
theorem test_wf_lit_long : (Instr.lit (List.replicate 64 0x41#8)).wellFormed = false := by decide
theorem test_wf_rle_short : (Instr.rle 3 0x41#8).wellFormed = false := by decide
theorem test_wf_rle_long : (Instr.rle 16388 0x41#8).wellFormed = false := by decide
theorem test_wf_ref_short : (Instr.ref 2 1).wellFormed = false := by decide
theorem test_wf_ref_long : (Instr.ref 19 1).wellFormed = false := by decide
theorem test_wf_ref_near : (Instr.ref 3 0).wellFormed = false := by decide
theorem test_wf_ref_far : (Instr.ref 3 2049).wellFormed = false := by decide
theorem test_wf_ends : Instr.lit0.wellFormed = true ∧ (Instr.lit [0x41#8]).wellFormed = true ∧
    (Instr.lit (List.replicate 63 0x41#8)).wellFormed = true ∧ (Instr.rle 4 0x41#8).wellFormed = true ∧
    (Instr.rle 16387 0x41#8).wellFormed = true ∧ (Instr.ref 3 1).wellFormed = true ∧
    (Instr.ref 18 2048).wellFormed = true := by decide

/-! ### Decode: bits written out from 30_encoding R71 to R76 -/

/-- `00 000000`: a literal of count 0. -/
theorem test_decode_lit0 : decode [0b00000000#8, 0xFF#8] = .ok (.lit0, [0xFF#8]) := by rfl

/-- `00 gggggg` with `g = 2`, then two raw bytes that look like tokens. -/
theorem test_decode_lit : decode [0b00000010#8, 0x00#8, 0xFF#8, 0x07#8] = .ok (.lit [0x00#8, 0xFF#8], [0x07#8]) := by rfl

/-- `01 cccccc cccccccc vvvvvvvv` with `c = 4996`: 010011 10000100. -/
theorem test_decode_rle : decode [0b01010011#8, 0b10000100#8, 0x41#8] = .ok (.rle 5000 0x41#8, []) := by rfl

/-- `1 llll ooo oooooooo` with `l = 7` and `o = 299`: 0111 001 00101011. -/
theorem test_decode_ref : decode [0b10111001#8, 0b00101011#8] = .ok (.ref 10 300, []) := by rfl

/-- The field values of the ends: V-ENC-3, V-ENC-6, V-ENC-7, V-ENC-10 to V-ENC-12. -/
theorem test_decode_ends : decode [0x40#8, 0x00#8, 0x00#8] = .ok (.rle 4 0x00#8, []) ∧
    decode [0x7F#8, 0xFF#8, 0x41#8] = .ok (.rle 16387 0x41#8, []) ∧ decode [0x80#8, 0x00#8] = .ok (.ref 3 1, []) ∧
    decode [0xF8#8, 0xFF#8] = .ok (.ref 18 256, []) ∧ decode [0x87#8, 0xFF#8] = .ok (.ref 3 2048, []) ∧
    decode [0xFF#8, 0xFF#8] = .ok (.ref 18 2048, []) := ⟨rfl, rfl, rfl, rfl, rfl, rfl⟩

/-- A token that is not all there, and no token at all. -/
theorem test_decode_cut : decode [0x80#8] = .error .cutShort ∧ decode [0x40#8, 0x00#8] = .error .cutShort ∧
    decode [0x05#8, 0x41#8, 0x42#8] = .error .cutShort ∧ decode [] = .error .exhausted := ⟨rfl, rfl, rfl, rfl⟩

/-- The encoder on V-ENC-1, V-ENC-4, V-ENC-5, V-ENC-9 and V-ENC-11. -/
theorem test_encode_vectors : encode (.lit [0x41#8]) = [0x01#8, 0x41#8] ∧
    encode (.rle 260 0x76#8) = [0x41#8, 0x00#8, 0x76#8] ∧ encode (.rle 5000 0x41#8) = [0x53#8, 0x84#8, 0x41#8] ∧
    encode (.ref 10 300) = [0xB9#8, 0x2B#8] ∧ encode (.ref 3 2048) = [0x87#8, 0xFF#8] := by decide

/-- The opcode table's numbering: the first byte is the low one, and bytes above it are zeros. -/
theorem test_table_words : decodeTableWord 8 0x00 = some .lit0 ∧ decodeTableWord 8 0x01 = some (.lit [0x00#8]) ∧
    decodeTableWord 24 0x418453 = some (.rle 5000 0x41#8) ∧ decodeTableWord 16 0x2BB9 = some (.ref 10 300) :=
  ⟨rfl, rfl, rfl, rfl⟩

/-! ### Helpers: running commands in a small state -/

/-- A running DECOMPRESS of a container with the given payload, with `out` decoded so far and `used` bytes read. -/
def decoding (k : Config) (orig : U32) (payload out : List Byte) (used : Nat) : State :=
  { State.resetWith k with
    mode := .decompressing, c := header orig (BitVec.ofNat 32 payload.length) ++ payload, rp := headerSize + used,
    out := out, orig := orig, psize := BitVec.ofNat 32 payload.length, endp := headerSize + payload.length }

/-- The same in the instance of the spec's parameters. -/
def dec (orig : U32) (payload out : List Byte) (used : Nat) : State := decoding Config.standard orig payload out used

/-- A COMPRESS just accepted. -/
def enc (k : Config) (data : List Byte) : State := { State.resetWith k with mode := .compressing, inp := data }

/-- The state `k` steps later, `s` itself where it stops. -/
def after (k : Nat) (s : State) : State := (nextOf (run k s)).getD s

/-- An instance whose buffers hold `n` bytes. -/
def small (n : Nat) : Config := { Config.standard with inCapacity := some n, outCapacity := some n }

/-- An instance with PAYLOAD_BOUND = PAYLOAD_SIZE_FIELD. -/
def fieldBound : Config := { Config.standard with payloadBound := .payloadSizeField }

/-- "ABCABCABCABC" (V-ENG-1). -/
def abc : List Byte := [0x41#8, 0x42#8, 0x43#8, 0x41#8, 0x42#8, 0x43#8, 0x41#8, 0x42#8, 0x43#8, 0x41#8, 0x42#8, 0x43#8]

/-- "AAAAAxAAAAA" (V-ENG-6). -/
def ties : List Byte := List.replicate 5 0x41#8 ++ [0x78#8] ++ List.replicate 5 0x41#8

/-- An idle machine of the instance `k` to which the host presents `cmd`. -/
def asked (k : Config) (cmd : Command) : State := { State.resetWith k with port := some cmd }

/-! ### Steps -/

/-- Each token placed by withFetchWord is the first instruction after reset (log entry 3). -/
theorem test_fetch_lit0 : (nextOf (step (State.reset.withFetchWord 8 0x00))).map (fun s => (s.rp, s.out)) = some (17, []) := by
  rfl
theorem test_fetch_lit : (nextOf (step (State.reset.withFetchWord 24 0x424102))).map (fun s => (s.rp, s.out)) =
    some (19, [0x41#8, 0x42#8]) := by rfl
theorem test_fetch_rle : (nextOf (step (State.reset.withFetchWord 24 0x410140))).map (fun s => (s.rp, s.out)) =
    some (19, List.replicate 5 0x41#8) := by rfl
theorem test_fetch_ref : (nextOf (step (State.reset.withFetchWord 16 0x0080))).map State.record =
    some (.err .invalidOffset, []) := by rfl

/-- V-DEC-10: an overlapping copy of period 2. -/
theorem test_ref_overlap : (nextOf (step (dec 9#32 [0x02#8, 0x41#8, 0x42#8, 0xB0#8, 0x01#8] [0x41#8, 0x42#8] 3))).map
    (fun s => (s.rp, s.out)) = some (21, [0x41#8, 0x42#8, 0x41#8, 0x42#8, 0x41#8, 0x42#8, 0x41#8, 0x42#8, 0x41#8, 0x42#8,
      0x41#8]) := by rfl

/-- V-ERR-5: an offset one past the output. -/
theorem test_ref_past_start : (nextOf (step (dec 4#32 [0x02#8, 0x41#8, 0x42#8, 0x80#8, 0x02#8] [0x41#8, 0x42#8] 3))).map
    State.record = some (.err .invalidOffset, []) := by rfl

/-- V-ERR-12: a literal whose bytes run past the end. -/
theorem test_lit_truncated : (nextOf (step (dec 5#32 [0x05#8, 0x41#8, 0x42#8] [] 0))).map State.record =
    some (.err .truncated, []) := by rfl

/-- V-DEC-7: the overshoot of an RLE is performed, then trimmed at the stop. -/
theorem test_rle_trimmed : (nextOf (run 2 (dec 2#32 [0x40#8, 0x00#8, 0x41#8] [] 0))).map State.record =
    some (.ok, [0x41#8, 0x41#8]) := by rfl

/-- V-DEC-4: LIT0, then a token. -/
theorem test_lit0_then_rle : (nextOf (run 3 (dec 4#32 [0x00#8, 0x40#8, 0x00#8, 0x41#8] [] 0))).map State.record =
    some (.ok, [0x41#8, 0x41#8, 0x41#8, 0x41#8]) := by rfl

/-- V-ENC-13: the encoder's operands out of range. -/
theorem test_emit_faults : faultOf (emit (.lit []) State.reset) = some .encoderParamRange ∧
    faultOf (emit (.rle 3 0x00#8) State.reset) = some .encoderParamRange ∧
    faultOf (emit (.rle 16388 0x00#8) State.reset) = some .encoderParamRange ∧
    faultOf (emit (.ref 2 1) State.reset) = some .encoderParamRange ∧
    faultOf (emit (.ref 3 2049) State.reset) = some .encoderParamRange := by decide

/-- V-ENG-1: the literal stops where the lookahead qualifies; V-ENG-2: the reference that overlap allows. -/
theorem test_engine_literal : (nextOf (step (enc Config.standard abc))).map (fun s => (s.pos, s.tok)) =
    some (3, [0x03#8, 0x41#8, 0x42#8, 0x43#8]) := by decide
theorem test_engine_reference : (nextOf (step (after 1 (enc Config.standard abc)))).map (fun s => (s.pos, s.tok)) =
    some (6, [0x03#8, 0x41#8, 0x42#8, 0x43#8, 0x80#8, 0x02#8]) := by decide
theorem test_engine_overlap :
    (nextOf (step (after 1 (enc { Config.standard with overlapMatch := true } abc)))).map (fun s => (s.pos, s.tok)) =
      some (12, [0x03#8, 0x41#8, 0x42#8, 0x43#8, 0xB0#8, 0x02#8]) := by decide

/-- V-ENG-7: a reference one longer than the run wins; V-ENG-20: the run at the start. -/
theorem test_engine_longer_wins : (nextOf (step (after 2 (enc Config.standard
    [0x41#8, 0x41#8, 0x41#8, 0x41#8, 0x78#8, 0x41#8, 0x41#8, 0x41#8, 0x41#8, 0x78#8])))).map (fun s => s.tok) =
    some [0x40#8, 0x00#8, 0x41#8, 0x01#8, 0x78#8, 0x90#8, 0x04#8] := by decide
theorem test_engine_run : (nextOf (step (enc Config.standard [0x41#8, 0x41#8, 0x41#8, 0x41#8, 0x42#8]))).map
    (fun s => (s.pos, s.tok)) = some (4, [0x40#8, 0x00#8, 0x41#8]) := by decide

/-- V-ASM-2: the container of "A". -/
theorem test_finish_compress : (nextOf (step (after 1 (enc Config.standard [0x41#8])))).map State.record =
    some (.ok, [0x4C#8, 0x5A#8, 0x50#8, 0x32#8, 0xAE#8, 0x47#8, 0x81#8, 0x3F#8, 0x01#8, 0x00#8, 0x00#8, 0x00#8,
      0x10#8, 0x00#8, 0x00#8, 0x00#8, 0x01#8, 0x41#8] ++ List.replicate 14 0x00#8) := by decide

/-- V-ASM-7: the payload bound with `psize = 0` under the two values of PAYLOAD_BOUND, and a `psize` past the end. -/
theorem test_payload_bound : payloadEnd Config.standard 19 0#32 = 19 ∧ payloadEnd fieldBound 19 0#32 = 16 ∧
    payloadEnd fieldBound 19 4#32 = 19 := by decide

/-- 41_match_engine R146: each of the three caps is the smallest somewhere (V-ENG-1, V-ENG-2, V-ENG-12's cap of 18). -/
theorem test_match_cap : matchCap false abc 3 0 = 3 ∧ matchCap true abc 3 0 = 9 ∧ matchCap false abc 10 0 = 2 ∧
    matchCap true (List.replicate 40 0x41#8) 20 0 = 18 ∧ matchCap false (List.replicate 40 0x41#8) 20 0 = 18 := by decide

/-- A memory as (address, byte) pairs (log entry 8). -/
theorem test_memory_cells : Memory.cells [0x41#8, 0x42#8] = [(0, 0x41#8), (1, 0x42#8)] ∧
    Memory.wf [0x41#8, 0x42#8] = true := by decide

/-! ### Witnesses: what the hypotheses of each obligation ask, met together at the ends of their ranges -/

theorem test_hyp_FirstByteSelectsToken :
    (decode [0x80#8, 0x00#8] = .ok (.ref 3 1, []) ∧ (0x80#8).getLsbD 7 = true) ∧
    (decode [0x40#8, 0x00#8, 0x41#8] = .ok (.rle 4 0x41#8, []) ∧ (0x40#8).getLsbD 7 = false ∧ (0x40#8).getLsbD 6 = true) ∧
    (decode [0x01#8, 0x41#8] = .ok (.lit [0x41#8], []) ∧ (0x01#8).getLsbD 7 = false ∧ (0x01#8).getLsbD 6 = false ∧
      0x01#8 ≠ 0x00#8) ∧
    decode [0x00#8] = .ok (.lit0, []) := ⟨⟨rfl, rfl⟩, ⟨rfl, rfl, rfl⟩, ⟨rfl, rfl, rfl, by decide⟩, rfl⟩

theorem test_hyp_LitFieldsDecode : (1 ≤ (0x01#8).toNat ∧ (0x01#8).toNat ≤ 63 ∧ (0x01#8).toNat ≤ [0x41#8].length) ∧
    (1 ≤ (0x3F#8).toNat ∧ (0x3F#8).toNat ≤ 63 ∧ (0x3F#8).toNat ≤ (List.replicate 63 0x41#8).length) := by decide

theorem test_hyp_RleFieldsDecode : (0x40 ≤ (0x40#8).toNat ∧ (0x40#8).toNat ≤ 0x7F) ∧
    (0x40 ≤ (0x7F#8).toNat ∧ (0x7F#8).toNat ≤ 0x7F) := by decide

theorem test_hyp_RefFieldsDecode : 0x80 ≤ (0x80#8).toNat ∧ 0x80 ≤ (0xFF#8).toNat := by decide

theorem test_hyp_EncodeFields : (1 ≤ [0x41#8].length ∧ [0x41#8].length ≤ 63) ∧ (4 ≤ 16387 ∧ 16387 ≤ 16387) ∧
    (3 ≤ 18 ∧ 18 ≤ 18 ∧ 1 ≤ 2048 ∧ 2048 ≤ 2048) := by decide

theorem test_hyp_DecodeAfterEncode : Instr.lit0.wellFormed = true ∧ (Instr.lit [0x41#8]).wellFormed = true ∧
    (Instr.rle 16387 0x41#8).wellFormed = true ∧ (Instr.ref 18 2048).wellFormed = true := by decide

theorem test_hyp_EncodeAfterDecode : decode [0x00#8] = .ok (.lit0, []) ∧
    decode [0x01#8, 0x41#8, 0x42#8] = .ok (.lit [0x41#8], [0x42#8]) ∧
    decode [0x7F#8, 0xFF#8, 0x41#8] = .ok (.rle 16387 0x41#8, []) ∧ decode [0x87#8, 0xFF#8] = .ok (.ref 3 2048, []) :=
  ⟨rfl, rfl, rfl, rfl⟩

theorem test_hyp_FirstByteFixesLength : [0x41#8].length + 1 < tokenSize 0x02#8 ∧
    tokenSize 0x02#8 ≤ [0x41#8, 0x42#8].length + 1 := by decide

/-- A token that just fits before `end` and in OUT, and one that is a byte short. -/
theorem test_hyp_LitCompletes :
    ((decoding (small 3) 9#32 [0x01#8, 0x41#8] [0x41#8, 0x42#8] 0).rp + 1 + [0x41#8].length ≤
        (decoding (small 3) 9#32 [0x01#8, 0x41#8] [0x41#8, 0x42#8] 0).endp ∧
      fits (small 3).outCapacity ([0x41#8, 0x42#8].length + [0x41#8].length) = true) ∧
    (dec 9#32 [0x01#8] [] 0).endp < (dec 9#32 [0x01#8] [] 0).rp + 1 + [0x41#8].length := by decide

theorem test_hyp_RleCompletes :
    ((decoding (small 4) 9#32 [0x40#8, 0x00#8, 0x41#8] [] 0).rp + 3 ≤
        (decoding (small 4) 9#32 [0x40#8, 0x00#8, 0x41#8] [] 0).endp ∧ fits (small 4).outCapacity (0 + 4) = true) ∧
    (dec 9#32 [0x40#8, 0x00#8] [] 0).endp < (dec 9#32 [0x40#8, 0x00#8] [] 0).rp + 3 := by decide

theorem test_hyp_RefFieldsDecode_offset : 3 ≤ 3 ∧ 1 ≤ 2 ∧ 2 ≤ (dec 9#32 [0x80#8, 0x01#8] [0x41#8, 0x42#8] 0).out.length ∧
    (dec 9#32 [0x80#8, 0x01#8] [0x41#8, 0x42#8] 0).rp + 2 ≤ (dec 9#32 [0x80#8, 0x01#8] [0x41#8, 0x42#8] 0).endp ∧
    exec (.ref 3 2) (dec 9#32 [0x80#8, 0x01#8] [0x41#8, 0x42#8] 0) =
      .next { dec 9#32 [0x80#8, 0x01#8] [0x41#8, 0x42#8] 0 with
        out := [0x41#8, 0x42#8, 0x41#8, 0x42#8, 0x41#8], rp := 18 } := ⟨by decide, by decide, by decide, by decide, rfl⟩

theorem test_hyp_RefCompletes : 1 ≤ 2 ∧ 2 ≤ (dec 9#32 [0x80#8, 0x01#8] [0x41#8, 0x42#8] 0).out.length ∧
    (dec 9#32 [0x80#8, 0x01#8] [0x41#8, 0x42#8] 0).rp + 2 ≤ (dec 9#32 [0x80#8, 0x01#8] [0x41#8, 0x42#8] 0).endp ∧
    fits (dec 9#32 [0x80#8, 0x01#8] [0x41#8, 0x42#8] 0).cfg.outCapacity (2 + 3) = true := by decide

theorem test_hyp_RefErrorOrder :
    (dec 9#32 [0x80#8] [] 0).endp < (dec 9#32 [0x80#8] [] 0).rp + 2 ∧
    ((dec 9#32 [0x80#8, 0x01#8] [0x41#8] 0).rp + 2 ≤ (dec 9#32 [0x80#8, 0x01#8] [0x41#8] 0).endp ∧
      (dec 9#32 [0x80#8, 0x01#8] [0x41#8] 0).out.length < 2) := by decide

/-- The three outcomes that the frame names. -/
theorem test_hyp_TokenFrame :
    exec (.rle 4 0x41#8) (dec 9#32 [0x40#8] [] 0) = .next (aborted .truncated (dec 9#32 [0x40#8] [] 0)) ∧
    exec (.ref 3 1) (dec 9#32 [0x80#8, 0x00#8] [] 0) = .next (aborted .invalidOffset (dec 9#32 [0x80#8, 0x00#8] [] 0)) ∧
    exec (.lit [0x41#8]) (dec 9#32 [0x01#8, 0x41#8] [] 0) =
      .next { dec 9#32 [0x01#8, 0x41#8] [] 0 with out := [0x41#8], rp := 18 } := ⟨rfl, rfl, rfl⟩

theorem test_hyp_StepRunsDecodedToken : (dec 1#32 [0x01#8, 0x41#8] [] 0).port = none ∧
    (dec 1#32 [0x01#8, 0x41#8] [] 0).mode = .decompressing ∧
    (dec 1#32 [0x01#8, 0x41#8] [] 0).out.length < (dec 1#32 [0x01#8, 0x41#8] [] 0).orig.toNat ∧
    (dec 1#32 [0x01#8, 0x41#8] [] 0).rp < (dec 1#32 [0x01#8, 0x41#8] [] 0).endp ∧
    (dec 1#32 [0x01#8, 0x41#8] [] 0).endp ≤ (dec 1#32 [0x01#8, 0x41#8] [] 0).c.length ∧
    decode (((dec 1#32 [0x01#8, 0x41#8] [] 0).c.take (dec 1#32 [0x01#8, 0x41#8] [] 0).endp).drop
      (dec 1#32 [0x01#8, 0x41#8] [] 0).rp) = .ok (.lit [0x41#8], []) :=
  ⟨rfl, rfl, by decide, by decide, by decide, rfl⟩

/-- What the decoder-step statements ask of a state, its first byte being `b0`. -/
abbrev AtByte (s : State) (b0 : Byte) : Prop :=
  s.port = none ∧ s.mode = .decompressing ∧ s.out.length < s.orig.toNat ∧ s.rp < s.endp ∧ s.endp ≤ s.c.length ∧
  s.c[s.rp]? = some b0

theorem test_hyp_StepDecodesLit :
    (AtByte (dec 1#32 [0x01#8, 0x41#8] [] 0) 0x01#8 ∧ 1 ≤ (0x01#8).toNat ∧ (0x01#8).toNat ≤ 63 ∧
      (dec 1#32 [0x01#8, 0x41#8] [] 0).rp + 1 + (0x01#8).toNat ≤ (dec 1#32 [0x01#8, 0x41#8] [] 0).endp ∧
      fits (dec 1#32 [0x01#8, 0x41#8] [] 0).cfg.outCapacity (0 + (0x01#8).toNat) = true) ∧
    (AtByte (dec 1#32 [0x3F#8, 0x41#8] [] 0) 0x3F#8 ∧ (0x3F#8).toNat ≤ 63 ∧
      (dec 1#32 [0x3F#8, 0x41#8] [] 0).endp < (dec 1#32 [0x3F#8, 0x41#8] [] 0).rp + 1 + (0x3F#8).toNat) := by decide

theorem test_hyp_StepDecodesRle :
    (AtByte (dec 1#32 [0x40#8, 0x00#8] [] 0) 0x40#8 ∧ 0x40 ≤ (0x40#8).toNat ∧ (0x40#8).toNat ≤ 0x7F ∧
      (dec 1#32 [0x40#8, 0x00#8] [] 0).endp < (dec 1#32 [0x40#8, 0x00#8] [] 0).rp + 3) ∧
    (AtByte (dec 1#32 [0x7F#8, 0xFF#8, 0x41#8] [] 0) 0x7F#8 ∧ (0x7F#8).toNat ≤ 0x7F ∧
      (dec 1#32 [0x7F#8, 0xFF#8, 0x41#8] [] 0).rp + 3 ≤ (dec 1#32 [0x7F#8, 0xFF#8, 0x41#8] [] 0).endp ∧
      (dec 1#32 [0x7F#8, 0xFF#8, 0x41#8] [] 0).c[17]? = some 0xFF#8 ∧
      (dec 1#32 [0x7F#8, 0xFF#8, 0x41#8] [] 0).c[18]? = some 0x41#8 ∧
      fits (dec 1#32 [0x7F#8, 0xFF#8, 0x41#8] [] 0).cfg.outCapacity 16387 = true) := by decide

theorem test_hyp_StepDecodesRef :
    (AtByte (dec 9#32 [0x80#8] [0x41#8] 0) 0x80#8 ∧ 0x80 ≤ (0x80#8).toNat ∧
      (dec 9#32 [0x80#8] [0x41#8] 0).endp < (dec 9#32 [0x80#8] [0x41#8] 0).rp + 2) ∧
    (AtByte (dec 9#32 [0x80#8, 0x01#8] [0x41#8] 0) 0x80#8 ∧
      (dec 9#32 [0x80#8, 0x01#8] [0x41#8] 0).rp + 2 ≤ (dec 9#32 [0x80#8, 0x01#8] [0x41#8] 0).endp ∧
      (dec 9#32 [0x80#8, 0x01#8] [0x41#8] 0).c[17]? = some 0x01#8 ∧
      (dec 9#32 [0x80#8, 0x01#8] [0x41#8] 0).out.length < ((0x80#8).toNat % 8) * 256 + (0x01#8).toNat + 1) ∧
    (AtByte (dec 9#32 [0x80#8, 0x00#8] [0x41#8] 0) 0x80#8 ∧
      (dec 9#32 [0x80#8, 0x00#8] [0x41#8] 0).c[17]? = some 0x00#8 ∧
      ((0x80#8).toNat % 8) * 256 + (0x00#8).toNat + 1 ≤ (dec 9#32 [0x80#8, 0x00#8] [0x41#8] 0).out.length ∧
      fits (dec 9#32 [0x80#8, 0x00#8] [0x41#8] 0).cfg.outCapacity (1 + ((0x80#8).toNat / 8 % 16 + 3)) = true) := by
  decide

theorem test_hyp_StepDecodesLit0 : AtByte (dec 1#32 [0x00#8] [] 0) 0x00#8 := by decide

theorem test_hyp_StopRule : (dec 1#32 [0xFF#8] [0x41#8] 0).port = none ∧
    (dec 1#32 [0xFF#8] [0x41#8] 0).mode = .decompressing ∧
    (dec 1#32 [0xFF#8] [0x41#8] 0).orig.toNat ≤ (dec 1#32 [0xFF#8] [0x41#8] 0).out.length := by decide

/-- V-ERR-13: the payload ends between tokens. -/
theorem test_hyp_ExhaustedPayload : (dec 5#32 [0x02#8, 0x41#8, 0x42#8] [0x41#8, 0x42#8] 3).port = none ∧
    (dec 5#32 [0x02#8, 0x41#8, 0x42#8] [0x41#8, 0x42#8] 3).mode = .decompressing ∧
    (dec 5#32 [0x02#8, 0x41#8, 0x42#8] [0x41#8, 0x42#8] 3).out.length <
      (dec 5#32 [0x02#8, 0x41#8, 0x42#8] [0x41#8, 0x42#8] 3).orig.toNat ∧
    (dec 5#32 [0x02#8, 0x41#8, 0x42#8] [0x41#8, 0x42#8] 3).endp ≤
      (dec 5#32 [0x02#8, 0x41#8, 0x42#8] [0x41#8, 0x42#8] 3).rp := by decide

theorem test_hyp_CommandsStartFresh :
    ((asked (small 1) (.compress [0x41#8])).mode = .idle ∧
      (asked (small 1) (.compress [0x41#8])).port = some (.compress [0x41#8]) ∧ [0x41#8].length < 2 ^ 32 ∧
      fits (asked (small 1) (.compress [0x41#8])).cfg.inCapacity [0x41#8].length = true) ∧
    ((asked Config.standard (.decompress (header 0#32 0#32))).mode = .idle ∧
      (asked Config.standard (.decompress (header 0#32 0#32))).port = some (.decompress (header 0#32 0#32)) ∧
      16 ≤ (header 0#32 0#32).length ∧ (header 0#32 0#32).take 8 = magic ∧
      (asked Config.standard (.decompress (header 0#32 0#32))).cfg.payloadBound = .containerEnd ∧
      (asked fieldBound (.decompress (header 0#32 0#32))).cfg.payloadBound = .payloadSizeField) := by decide

/-- V-ERR-3: sixteen zero bytes. -/
theorem test_hyp_MagicMismatch : (asked Config.standard (.decompress (List.replicate 16 0x00#8))).mode = .idle ∧
    (asked Config.standard (.decompress (List.replicate 16 0x00#8))).port =
      some (.decompress (List.replicate 16 0x00#8)) ∧
    16 ≤ (List.replicate 16 0x00#8).length ∧
    (List.replicate 16 0x00#8).take 8 ≠ [0x4C#8, 0x5A#8, 0x50#8, 0x32#8, 0xAE#8, 0x47#8, 0x81#8, 0x3F#8] := by decide

theorem test_hyp_SizeChecks :
    ((asked Config.standard (.decompress (List.replicate 15 0x00#8))).mode = .idle ∧
      (asked Config.standard (.decompress (List.replicate 15 0x00#8))).port =
        some (.decompress (List.replicate 15 0x00#8)) ∧ (List.replicate 15 0x00#8).length < 16) ∧
    ((asked Config.standard (.compress (List.replicate (2 ^ 32) 0x00#8))).mode = .idle ∧
      (asked Config.standard (.compress (List.replicate (2 ^ 32) 0x00#8))).port =
        some (.compress (List.replicate (2 ^ 32) 0x00#8)) ∧ 2 ^ 32 ≤ (List.replicate (2 ^ 32) 0x00#8).length) :=
  ⟨by decide, rfl, rfl, by rw [List.length_replicate]⟩

theorem test_hyp_CompressFinishes : (after 1 (enc Config.standard [0x41#8])).port = none ∧
    (after 1 (enc Config.standard [0x41#8])).mode = .compressing ∧
    (after 1 (enc Config.standard [0x41#8])).inp.length ≤ (after 1 (enc Config.standard [0x41#8])).pos ∧
    (padded (after 1 (enc Config.standard [0x41#8])).tok).length < 2 ^ 32 := by decide

/-- The other clause, at the smallest stream whose padding reaches 2^32. -/
theorem test_hyp_CompressFinishes_tooLarge :
    ({ enc Config.standard [] with tok := List.replicate (2 ^ 32 - 15) 0x00#8 } : State).port = none ∧
    ({ enc Config.standard [] with tok := List.replicate (2 ^ 32 - 15) 0x00#8 } : State).mode = .compressing ∧
    ({ enc Config.standard [] with tok := List.replicate (2 ^ 32 - 15) 0x00#8 } : State).inp.length ≤
      ({ enc Config.standard [] with tok := List.replicate (2 ^ 32 - 15) 0x00#8 } : State).pos ∧
    2 ^ 32 ≤ (padded (List.replicate (2 ^ 32 - 15) 0x00#8)).length :=
  ⟨rfl, rfl, Nat.le_refl _, by rw [padded_length, List.length_replicate]; decide⟩

/-- COMPRESS of "A" returns V-ASM-2: the hypotheses of ContainerHeader, ContainerSizeBound,
RoundTrip and CommandsAreIndependent. -/
theorem test_hyp_Returns : State.reset.mode = .idle ∧ fits State.reset.cfg.outCapacity [0x41#8].length = true ∧
    Returns (.compress [0x41#8]) State.reset .ok ([0x4C#8, 0x5A#8, 0x50#8, 0x32#8, 0xAE#8, 0x47#8, 0x81#8, 0x3F#8,
      0x01#8, 0x00#8, 0x00#8, 0x00#8, 0x10#8, 0x00#8, 0x00#8, 0x00#8, 0x01#8, 0x41#8] ++ List.replicate 14 0x00#8) :=
  ⟨rfl, rfl, 3, _, rfl, rfl, rfl, rfl⟩

/-- Two idle states of one instance that differ in the record and in a buffer. -/
theorem test_hyp_CommandsAreIndependent :
    ({ State.reset with status := .ok, result := [0x41#8], out := [0x42#8] } : State).mode = .idle ∧
    ({ State.reset with status := .ok, result := [0x41#8], out := [0x42#8] } : State).cfg = State.reset.cfg ∧
    ({ State.reset with status := .ok, result := [0x41#8], out := [0x42#8] } : State) ≠ State.reset := by decide

theorem test_hyp_EmptyInput : State.reset.mode = .idle := rfl

theorem test_hyp_HeaderLittleEndian :
    (asked Config.standard (.decompress (header 1#32 2#32))).mode = .idle ∧
    (asked Config.standard (.decompress (header 1#32 2#32))).port = some (.decompress (header 1#32 2#32)) ∧
    nextOf (step (asked Config.standard (.decompress (header 1#32 2#32)))) =
      some (after 1 (asked Config.standard (.decompress (header 1#32 2#32)))) ∧
    (after 1 (asked Config.standard (.decompress (header 1#32 2#32)))).mode = .decompressing := by decide

/-- Its third clause asks for what CompressFinishes asks, and for a next state. -/
theorem test_hyp_HeaderLittleEndian_written :
    (after 1 (enc Config.standard [0x41#8])).port = none ∧ (after 1 (enc Config.standard [0x41#8])).mode = .compressing ∧
    (after 1 (enc Config.standard [0x41#8])).inp.length ≤ (after 1 (enc Config.standard [0x41#8])).pos ∧
    (padded (after 1 (enc Config.standard [0x41#8])).tok).length < 2 ^ 32 ∧
    nextOf (step (after 1 (enc Config.standard [0x41#8]))) = some (after 2 (enc Config.standard [0x41#8])) := by decide

/-- Each token the encoder takes, at the smallest operands. -/
theorem test_hyp_NoLit0Emitted :
    (nextOf (emit (.lit [0x00#8]) State.reset)).map (fun s => s.tok) = some [0x01#8, 0x00#8] ∧
    (nextOf (emit (.rle 4 0x00#8) State.reset)).map (fun s => s.tok) = some [0x40#8, 0x00#8, 0x00#8] ∧
    (nextOf (emit (.ref 3 1) State.reset)).map (fun s => s.tok) = some [0x80#8, 0x00#8] := by decide

theorem test_hyp_EmitAppends : (1 ≤ [0x41#8].length ∧ [0x41#8].length ≤ 63) ∧
    ¬(1 ≤ ([] : List Byte).length ∧ ([] : List Byte).length ≤ 63) ∧ (4 ≤ 4 ∧ 4 ≤ 16387) ∧ ¬(4 ≤ 16388 ∧ 16388 ≤ 16387) ∧
    (3 ≤ 18 ∧ 18 ≤ 18 ∧ 1 ≤ 2048 ∧ 2048 ≤ 2048) ∧ ¬(3 ≤ 3 ∧ 3 ≤ 18 ∧ 1 ≤ 2049 ∧ 2049 ≤ 2048) := by decide

theorem test_hyp_RleLenIsLongestRun : 11 < abc.length := by decide

/-- The same key at 0 and 3, another one at 1; 9 is the last position that has one. -/
theorem test_hyp_KeyIsExact : 0 + 3 ≤ abc.length ∧ 9 + 3 ≤ abc.length ∧ key abc 0 = key abc 9 ∧ key abc 0 ≠ key abc 1 := by
  decide

theorem test_hyp_MatchLenIsLongestMatch : 0 < 3 ∧ 3 < abc.length ∧ matchLen false abc 3 0 = 3 ∧ matchLen true abc 3 0 = 9 := by
  decide

/-- A position with a match, and one whose input ends before a key. -/
theorem test_hyp_BestRefIsLongestThenNearest :
    IndexInv Config.standard abc 3 (after 1 (enc Config.standard abc)).idx ∧ 3 ≤ 3 ∧ 3 ≤ abc.length - 3 ∧
    bestRef (after 1 (enc Config.standard abc)) 3 = (3, 3) ∧ abc.length - 10 < 3 := by decide

/-- The three decisions: a run that ties with a reference (V-ENG-6 at 6), a reference, a literal. -/
theorem test_hyp_DecisionOrder :
    (CompressInv (after 2 (enc Config.standard ties)) ∧ (after 2 (enc Config.standard ties)).pos = 6 ∧
      4 ≤ rleLen ties 6 ∧ bestRef (after 2 (enc Config.standard ties)) 6 = (5, 6) ∧ rleLen ties 6 = 5) ∧
    (CompressInv (after 1 (enc Config.standard abc)) ∧ (after 1 (enc Config.standard abc)).pos = 3 ∧ rleLen abc 3 < 4 ∧
      3 ≤ (bestRef (after 1 (enc Config.standard abc)) 3).1) ∧
    (CompressInv (enc Config.standard abc) ∧ rleLen abc 0 < 4 ∧ (bestRef (enc Config.standard abc) 0).1 < 3) :=
  ⟨by decide, by decide, by decide⟩

theorem test_hyp_EngineEmitsRle : (enc Config.standard (List.replicate 4 0x41#8)).port = none ∧
    (enc Config.standard (List.replicate 4 0x41#8)).mode = .compressing ∧
    (enc Config.standard (List.replicate 4 0x41#8)).inp[0]? = some 0x41#8 ∧
    4 ≤ rleLen (List.replicate 4 0x41#8) 0 ∧
    (bestRef (enc Config.standard (List.replicate 4 0x41#8)) 0).1 ≤ rleLen (List.replicate 4 0x41#8) 0 := by decide

theorem test_hyp_EngineEmitsRef : (after 1 (enc Config.standard abc)).port = none ∧
    (after 1 (enc Config.standard abc)).mode = .compressing ∧ CompressInv (after 1 (enc Config.standard abc)) ∧
    (after 1 (enc Config.standard abc)).pos = 3 ∧ 3 < abc.length ∧ ¬(4 ≤ rleLen abc 3) ∧
    3 ≤ (bestRef (after 1 (enc Config.standard abc)) 3).1 := by decide

theorem test_hyp_EngineEmitsLit : (enc Config.standard [0x41#8]).port = none ∧
    (enc Config.standard [0x41#8]).mode = .compressing ∧ (enc Config.standard [0x41#8]).pos < [0x41#8].length ∧
    ¬(4 ≤ rleLen [0x41#8] 0) ∧ (bestRef (enc Config.standard [0x41#8]) 0).1 < 3 := by decide

theorem test_hyp_AppendUpdatesIndex : Index.wf (after 1 (enc Config.standard abc)).idx = true ∧
    key abc 3 = some 0x414243 ∧ key abc 3 ≠ some 0x424344 := by decide

theorem test_hyp_IndexIsBounded :
    (IndexInv Config.standard abc 3 (after 1 (enc Config.standard abc)).idx ∧
      Index.total (after 1 (enc Config.standard abc)).idx = 3) ∧
    MachineInv (enc Config.standard abc) ∧
    nextOf (step (enc Config.standard abc)) = some (after 1 (enc Config.standard abc)) :=
  ⟨by decide, by decide, by decide⟩

/-- The index after the first literal of an input is the one R160 describes. -/
theorem test_index_exact : IndexExact (after 1 (enc Config.standard abc)).cfg (after 1 (enc Config.standard abc)).inp
    (after 1 (enc Config.standard abc)).pos (after 1 (enc Config.standard abc)).idx := by
  have h : after 1 (enc Config.standard abc) =
      { appendDictAll (abc.take 3) (enc Config.standard abc) with pos := 3, tok := encode (.lit (abc.take 3)) } := by
    decide
  rw [h]
  exact indexExact_appendAll (abc.take 3) (s := enc Config.standard abc) (n := 0) rfl rfl fun w => by
    simp [enc, State.resetWith, positions]

theorem test_hyp_StepKeepsIndexExact : (after 1 (enc Config.standard abc)).mode = .compressing ∧
    CompressInv (after 1 (enc Config.standard abc)) ∧
    IndexExact (after 1 (enc Config.standard abc)).cfg (after 1 (enc Config.standard abc)).inp
      (after 1 (enc Config.standard abc)).pos (after 1 (enc Config.standard abc)).idx ∧
    nextOf (step (after 1 (enc Config.standard abc))) = some (after 2 (enc Config.standard abc)) ∧
    (after 2 (enc Config.standard abc)).mode = .compressing :=
  ⟨by decide, by decide, test_index_exact, by decide, by decide⟩

theorem test_hyp_CandidatesFromInput : (after 1 (enc Config.standard abc)).cfg.WellFormed ∧
    IndexExact (after 1 (enc Config.standard abc)).cfg (after 1 (enc Config.standard abc)).inp 3
      (after 1 (enc Config.standard abc)).idx ∧
    key (after 1 (enc Config.standard abc)).inp 3 = some 0x414243 ∧
    candidates (after 1 (enc Config.standard abc)) 3 = [0] :=
  ⟨by decide, test_index_exact, by decide, by decide⟩

theorem test_hyp_ShortLiteralThenMatch : (enc Config.standard abc).port = none ∧
    (enc Config.standard abc).mode = .compressing ∧ (enc Config.standard abc).pos < abc.length ∧ ¬(4 ≤ rleLen abc 0) ∧
    (bestRef (enc Config.standard abc) 0).1 < 3 ∧
    nextOf (step (enc Config.standard abc)) = some (after 1 (enc Config.standard abc)) ∧
    (after 1 (enc Config.standard abc)).tok = [] ++ encode (.lit (abc.take 3)) ∧ (abc.take 3).length < 63 ∧
    (after 1 (enc Config.standard abc)).pos < abc.length := by decide

/-- The invariant holds in each mode and is kept by a step there. -/
theorem test_hyp_StepKeepsInv : MachineInv State.reset ∧ nextOf (step State.reset) = some State.reset ∧
    MachineInv (after 1 (enc Config.standard abc)) ∧
    nextOf (step (after 1 (enc Config.standard abc))) = some (after 2 (enc Config.standard abc)) ∧
    MachineInv (dec 9#32 [0x01#8, 0x41#8] [] 0) ∧
    (nextOf (step (dec 9#32 [0x01#8, 0x41#8] [] 0))).isSome = true :=
  ⟨by decide, by decide, by decide, by decide, by decide, by decide⟩

/-- An instance whose OUT holds one byte and a run of four. -/
theorem test_hyp_StepFaultsOnlyOnCapacity :
    MachineInv (decoding (small 1) 9#32 [0x40#8, 0x00#8, 0x41#8] [] 0) ∧
    step (decoding (small 1) 9#32 [0x40#8, 0x00#8, 0x41#8] [] 0) = .fault .capacityExceeded := ⟨by decide, rfl⟩

theorem test_hyp_WaitsAndRefuses : (State.reset.port = none ∧ State.reset.mode = .idle) ∧
    (({ dec 9#32 [] [] 0 with port := some (.compress []) } : State).port = some (.compress []) ∧
      ({ dec 9#32 [] [] 0 with port := some (.compress []) } : State).mode ≠ .idle) := by decide

theorem test_hyp_ParametersAndRecordStand :
    nextOf (step (enc Config.standard abc)) = some (after 1 (enc Config.standard abc)) ∧
    (after 1 (enc Config.standard abc)).mode ≠ .idle := by decide

theorem test_hyp_BuffersOnlyGrow : (enc Config.standard abc).mode ≠ .idle ∧
    nextOf (step (enc Config.standard abc)) = some (after 1 (enc Config.standard abc)) ∧
    (after 1 (enc Config.standard abc)).mode ≠ .idle := by decide

theorem test_hyp_CommandEndDiscards : (dec 1#32 [0xFF#8] [0x41#8] 0).mode ≠ .idle ∧
    nextOf (step (dec 1#32 [0xFF#8] [0x41#8] 0)) = some (after 1 (dec 1#32 [0xFF#8] [0x41#8] 0)) ∧
    (after 1 (dec 1#32 [0xFF#8] [0x41#8] 0)).mode = .idle := by decide

theorem test_hyp_StepKeepsTokReplays : TokReplays (after 1 (enc Config.standard abc)) ∧
    CompressInv (after 1 (enc Config.standard abc)) ∧
    nextOf (step (after 1 (enc Config.standard abc))) = some (after 2 (enc Config.standard abc)) ∧
    (after 2 (enc Config.standard abc)).mode = .compressing :=
  ⟨⟨[.lit (abc.take 3)], by decide, by decide, by decide⟩, by decide, by decide, by decide⟩

theorem test_hyp_CompressEnds : (State.resetWith (small 1)).mode = .idle ∧
    fits (State.resetWith (small 1)).cfg.inCapacity [0x41#8].length = true := by decide

theorem test_hyp_DecompressEnds : (State.resetWith (small (2 ^ 32 + 16387))).mode = .idle ∧
    fits (State.resetWith (small (2 ^ 32 + 16387))).cfg.outCapacity (2 ^ 32 + 16387) = true := by decide

/-- IN and OUT one byte too small. -/
theorem test_hyp_StuckPastCapacity :
    ((asked (small 1) (.compress [0x41#8, 0x42#8])).mode = .idle ∧
      (asked (small 1) (.compress [0x41#8, 0x42#8])).port = some (.compress [0x41#8, 0x42#8]) ∧
      [0x41#8, 0x42#8].length < 2 ^ 32 ∧ fits (small 1).inCapacity [0x41#8, 0x42#8].length = false) ∧
    (expand (.rle 4 0x41#8) [] = some (List.replicate 4 0x41#8) ∧ Instr.rle 4 0x41#8 ≠ .lit0 ∧
      (decoding (small 3) 9#32 [0x40#8, 0x00#8, 0x41#8] [] 0).rp + (Instr.rle 4 0x41#8).size ≤
        (decoding (small 3) 9#32 [0x40#8, 0x00#8, 0x41#8] [] 0).endp ∧
      fits (small 3).outCapacity (List.replicate 4 0x41#8).length = false) := by decide

end Sys2Proof.Tests
end

/-! PROOFS. What a step of a running command answers, and that its buffers only grow (10_state R46). -/

namespace Sys2Proof.Machine

/-- Whatever state a token answers has the token's expansion in OUT and `rp` past the token, or the command is
aborted. -/
theorem exec_next {i : Instr} {s t : State} (h : exec i s = .next t) :
    (∃ m, expand i s.out = some m ∧ t = { s with out := m, rp := s.rp + i.size }) ∨ ∃ e, t = aborted e s := by
  cases i with
  | lit0 => cases h; exact .inl ⟨s.out, rfl, rfl⟩
  | lit d =>
    change execLit d s = .next t at h
    obtain ⟨-, g⟩ | ⟨-, g⟩ := execLit_cases d s <;> rw [g] at h
    · cases h; exact .inr ⟨_, rfl⟩
    · exact .inl ⟨_, rfl, (putOut_eq_next.1 h).2⟩
  | rle n v =>
    change execRle n v s = .next t at h
    obtain ⟨-, g⟩ | ⟨-, g⟩ := execRle_cases n v s <;> rw [g] at h
    · cases h; exact .inr ⟨_, rfl⟩
    · exact .inl ⟨_, rfl, (putOut_eq_next.1 h).2⟩
  | ref l o =>
    change execRef l o s = .next t at h
    obtain ⟨-, g⟩ | ⟨-, -, g⟩ | ⟨-, -, -, g⟩ | ⟨-, ho, m, hm, g⟩ := execRef_cases l o s <;> rw [g] at h
    · cases h; exact .inr ⟨_, rfl⟩
    · cases h; exact .inr ⟨_, rfl⟩
    · cases h
    · exact .inl ⟨m, by rw [expand, if_neg (by omega), hm], (putOut_eq_next.1 h).2⟩

/-- Whatever state a decoder step answers has a token's expansion in OUT and `rp` past the token, or the command has
ended. -/
theorem decodeStep_next {s t : State} (h : decodeStep s = .next t) :
    (∃ i m, expand i s.out = some m ∧ t = { s with out := m, rp := s.rp + i.size }) ∨
    t = completed (s.out.take s.orig.toNat) s ∨ ∃ e, t = aborted e s := by
  obtain ⟨-, g⟩ | ⟨e, -, g⟩ | ⟨-, g⟩ | ⟨i, -, g⟩ := decodeStep_cases s <;> rw [g] at h
  · cases h; exact .inr (.inl rfl)
  · cases h; exact .inr (.inr ⟨e, rfl⟩)
  · cases h
  · obtain ⟨m, hm, ht⟩ | he := exec_next h
    · exact .inl ⟨i, m, hm, ht⟩
    · exact .inr (.inr he)

/-- Whatever state a step of a running COMPRESS answers is the state after a decision, or the command has ended. -/
theorem compressStep_next {s t : State} (h : compressStep s = .next t) :
    (∃ i bs, t = afterDecision i bs s) ∨
    t = completed (container s.inp.length s.tok) s ∨ t = aborted .tooLarge s := by
  unfold compressStep at h
  split at h
  · exact .inl (engineStep_next h)
  · obtain ⟨-, g⟩ | ⟨-, g⟩ := finishCompress_cases s <;> rw [g] at h <;> cases h
    · exact .inr (.inr rfl)
    · exact .inr (.inl rfl)

/-- Settles O52: a step within a command is an engine decision, which appends to DICT and TOK, or a token's effect,
which appends to OUT; the ends of a command answer an idle state. -/
theorem buffersOnlyGrow : Obligations.BuffersOnlyGrow := by
  intro s t h hs ht
  obtain ⟨-, hm, -⟩ | ⟨-, -, hm, -⟩ | ⟨-, -, hc⟩ | ⟨-, -, hd⟩ := step_cases h
  · exact absurd hm hs
  · exact absurd hm hs
  · obtain ⟨i, bs, rfl⟩ | rfl | rfl := compressStep_next hc
    · simp [afterDecision]
    · exact absurd rfl ht
    · exact absurd rfl ht
  · obtain ⟨i, m, hm, rfl⟩ | rfl | ⟨e, rfl⟩ := decodeStep_next hd
    · obtain ⟨ext, rfl, -⟩ := expand_append hm
      simp
    · exact absurd rfl ht
    · exact absurd rfl ht

end Sys2Proof.Machine

/-! PROOFS. The memories of 20_memory: the copy of a reference (R64) and the byte order of the header (R52). -/

namespace Sys2Proof.Machine

/-! ### The copy of a reference -/

/-- The expansion of a reference with an offset inside the output appends `l` bytes, each equal to the one `o` places
before it. -/
theorem expand_ref_spec {l o : Nat} {m : Memory} (h1 : 1 ≤ o) (h2 : o ≤ m.length) :
    ∃ ext : List Byte, expand (.ref l o) m = some (m ++ ext) ∧ ext.length = l ∧
      ∀ i, i < l → (m ++ ext)[m.length + i]? = (m ++ ext)[m.length - o + i]? := by
  rw [expand, if_neg (by omega)]
  exact copyFrom_spec l (m.length - o) m (by omega)

/-- Settles O13: the copied bytes are those of the reference's expansion, which fits OUT. -/
theorem refCompletes : Obligations.RefCompletes := by
  intro l o s h1 h2 hend hfits
  obtain ⟨ext, hexp, hlen, hcopy⟩ := expand_ref_spec (l := l) h1 h2
  have hroom : fits s.cfg.outCapacity (s.out ++ ext).length = true := by rwa [List.length_append, hlen]
  exact ⟨ext, hlen, hcopy, exec_of_expand hend hexp hroom⟩

/-! ### The integers of the header -/

/-- The four bytes of an integer, lowest first, are its bits from 0, 8, 16 and 24 on. -/
theorem putLe32_eq_extractLsb' (v : U32) :
    putLe32 v = [v.extractLsb' 0 8, v.extractLsb' 8 8, v.extractLsb' 16 8, v.extractLsb' 24 8] := by
  simp only [putLe32, BitVec.setWidth_ushiftRight_eq_extractLsb]
  rw [BitVec.setWidth_eq_extractLsb' (by decide)]

/-- A start of DECOMPRESS that goes on to the decoder has read `orig` at 8 and `psize` at 12 of the container. -/
theorem startDecompress_reads {d : List Byte} {s t : State} (h : startDecompress d s = .next t)
    (hm : t.mode = .decompressing) : le32 d 8 = some t.orig ∧ le32 d 12 = some t.psize := by
  obtain ⟨-, g⟩ | ⟨-, -, g⟩ | ⟨-, -, o, p, ho, hp, g⟩ := startDecompress_cases d s <;> rw [g] at h <;> cases h
  · cases hm
  · cases hm
  · exact ⟨ho, hp⟩

/-- A step of COMPRESS past the last input byte, where the padded stream's length is one that `psize` can record,
completes the command with the container. -/
theorem step_compressing_completes {s : State} (hp : s.port = none) (hm : s.mode = .compressing)
    (hpos : s.inp.length ≤ s.pos) (hlen : (padded s.tok).length < 2 ^ 32) :
    step s = .next (completed (container s.inp.length s.tok) s) := by
  rw [step_compressing hp hm, compressStep, if_neg (by omega)]
  obtain ⟨hbig, -⟩ | ⟨-, g⟩ := finishCompress_cases s
  · simp only [sizeLimit] at hbig
    omega
  · exact g

/-- Settles O27: the header's bytes and their reading back, the fields DECOMPRESS takes, the fields COMPRESS writes. -/
theorem headerLittleEndian : Obligations.HeaderLittleEndian := by
  refine ⟨fun o p rest => ⟨?_, le32_header_orig o p rest, le32_header_psize o p rest⟩, ?_, ?_⟩
  · rw [header, putLe32_eq_extractLsb', putLe32_eq_extractLsb']
  · intro s t d hm hp h ht
    rw [step_accept hp hm] at h
    exact startDecompress_reads h ht
  · intro s t hp hm hpos hlen h
    rw [step_compressing_completes hp hm hpos hlen] at h
    cases h
    exact ⟨_, _, rfl, rfl, (BitVec.toNat_ofNat _ _).trans (Nat.mod_eq_of_lt hlen)⟩

end Sys2Proof.Machine

/-! PROOFS. The fields of 30_encoding: what the first byte selects (R78), and each token's fields in the decode direction
(R74 to R76) and in the encode direction (R77). -/

namespace Sys2Proof

/-! ### What the first byte selects -/

/-- Bit 7 of a byte as a bound on its value. -/
theorem getLsbD_seven (b : Byte) : b.getLsbD 7 = decide (128 ≤ b.toNat) := by
  simpa [BitVec.msb_eq_getLsbD_last] using BitVec.msb_eq_decide b

/-- Bit 6 of a byte whose bit 7 is clear, as a bound on its value. -/
theorem getLsbD_six {b : Byte} (h : b.toNat < 128) : b.getLsbD 6 = decide (64 ≤ b.toNat) := by
  rw [BitVec.getLsbD, Nat.testBit_eq_decide_div_mod_eq, decide_eq_decide]
  omega

/-- A first byte from 0x80 on begins a reference. -/
theorem decode_eq_decodeRef {b0 : Byte} (h : 128 ≤ b0.toNat) (rest : List Byte) :
    decode (b0 :: rest) = decodeRef b0 rest := by
  rw [decode_cons, if_pos h]

/-- A first byte of 0x40 to 0x7F begins a run. -/
theorem decode_eq_decodeRle {b0 : Byte} (h1 : 64 ≤ b0.toNat) (h2 : b0.toNat < 128) (rest : List Byte) :
    decode (b0 :: rest) = decodeRle b0 rest := by
  rw [decode_cons, if_neg (by omega), if_pos h1]

/-- A first byte of 1 to 63 begins a literal of that count. -/
theorem decode_eq_decodeLit {b0 : Byte} (h1 : 1 ≤ b0.toNat) (h2 : b0.toNat < 64) (rest : List Byte) :
    decode (b0 :: rest) = decodeLit b0.toNat rest := by
  rw [decode_cons, if_neg (by omega), if_neg (by omega), if_neg (by omega)]

/-- The byte 0x00 is LIT0 whatever follows. -/
theorem decode_zero (rest : List Byte) : decode (0x00#8 :: rest) = .ok (.lit0, rest) := rfl

theorem decodeRef_eq_ok {b0 : Byte} {rest left : List Byte} {i : Instr} (h : decodeRef b0 rest = .ok (i, left)) :
    ∃ l o, i = .ref l o := by
  cases rest with
  | nil => cases h
  | cons b1 r => cases h; exact ⟨_, _, rfl⟩

theorem decodeRle_eq_ok {b0 : Byte} {rest left : List Byte} {i : Instr} (h : decodeRle b0 rest = .ok (i, left)) :
    ∃ n v, i = .rle n v := by
  match rest, h with
  | _ :: _ :: _, h => cases h; exact ⟨_, _, rfl⟩

theorem decodeLit_eq_ok {g : Nat} {rest left : List Byte} {i : Instr} (h : decodeLit g rest = .ok (i, left)) :
    ∃ d, i = .lit d := by
  unfold decodeLit at h
  split at h
  · cases h
  · cases h; exact ⟨_, rfl⟩

/-- Settles O2: the two high bits bound the first byte's value, the value selects the branch, and each branch answers
one kind of token. -/
theorem firstByteSelectsToken : Obligations.FirstByteSelectsToken := by
  intro b0 rest i left h
  refine ⟨fun h7 => ?_, fun h7 h6 => ?_, fun h7 h6 hne => ?_, ?_⟩
  · rw [getLsbD_seven, decide_eq_true_eq] at h7
    exact decodeRef_eq_ok (decode_eq_decodeRef h7 rest ▸ h)
  · rw [getLsbD_seven, decide_eq_false_iff_not, Nat.not_le] at h7
    rw [getLsbD_six h7, decide_eq_true_eq] at h6
    exact decodeRle_eq_ok (decode_eq_decodeRle h6 h7 rest ▸ h)
  · rw [getLsbD_seven, decide_eq_false_iff_not, Nat.not_le] at h7
    rw [getLsbD_six h7, decide_eq_false_iff_not, Nat.not_le] at h6
    have hpos : 1 ≤ b0.toNat := by
      have : b0.toNat ≠ 0 := fun h0 => hne (BitVec.eq_of_toNat_eq h0)
      omega
    exact decodeLit_eq_ok (decode_eq_decodeLit hpos h6 rest ▸ h)
  · rintro rfl
    rw [decode_zero] at h
    cases h
    rfl

/-! ### The fields, decoded -/

/-- Settles O3: the literal's branch finds all its bytes there. -/
theorem litFieldsDecode : Obligations.LitFieldsDecode := by
  intro b0 rest h1 h2 hlen
  rw [decode_eq_decodeLit h1 (by omega), decodeLit, if_neg (by omega)]

/-- Settles O4: the run's branch, and the bounds of a 14-bit field. -/
theorem rleFieldsDecode : Obligations.RleFieldsDecode := by
  intro b0 b1 v rest h1 h2
  have hb1 := byte_lt b1
  refine ⟨?_, by omega, by omega⟩
  rw [decode_eq_decodeRle h1 (by omega), decodeRle_cons]

end Sys2Proof

namespace Sys2Proof.Machine

/-- A reference whose bytes lie before `end` and whose offset lies inside OUT is the append of its expansion. -/
theorem exec_ref_of_expand {l o : Nat} {s : State} {m : Memory} (hend : s.rp + 2 ≤ s.endp) (ho : o ≤ s.out.length)
    (h : expand (.ref l o) s.out = some m) : exec (.ref l o) s = putOut m 2 s := by
  rw [expand, if_neg (by omega)] at h
  rw [exec, execRef, if_neg (by omega), if_neg (by omega), h]

/-- Settles O5: the reference's branch with the bounds of its two fields, and the first copied byte of its expansion,
which lies in OUT as it was before the copy. -/
theorem refFieldsDecode : Obligations.RefFieldsDecode := by
  refine ⟨fun b0 b1 rest h => ?_, fun l o s t hl ho1 ho2 hend h => ?_⟩
  · have hb1 := byte_lt b1
    refine ⟨?_, by omega, by omega, by omega, by omega⟩
    rw [decode_eq_decodeRef h, decodeRef_cons]
  · obtain ⟨ext, hexp, -, hcopy⟩ := expand_ref_spec (l := l) ho1 ho2
    rw [exec_ref_of_expand hend ho2 hexp] at h
    obtain ⟨-, rfl⟩ := putOut_eq_next.1 h
    calc (s.out ++ ext)[s.out.length]?
      _ = (s.out ++ ext)[s.out.length - o]? := hcopy 0 (by omega)
      _ = s.out[s.out.length - o]? := List.getElem?_append_left (by omega)

/-! ### The fields, encoded -/

/-- Settles O6: operands in range have fields that fit, so the encoder's shifts and masks are quotients and
remainders. -/
theorem encodeFields : Obligations.EncodeFields := by
  refine ⟨fun _ _ _ => rfl, fun n v _ hn => ?_, fun l o _ hl _ ho => ?_⟩
  · exact encode_rle n v (by omega)
  · exact encode_ref l o (by omega) (by omega)

end Sys2Proof.Machine

/-! PROOFS. The token encoder (40_token_codec): the bytes each decision appends, where it faults (R105, R109, R111), and
that it emits no LIT0 (R107). -/

namespace Sys2Proof

/-- Every token in range has an encoding as long as its first byte announces (30_encoding R81). -/
theorem encodeSize_statement (i : Instr) : Laws.EncodeSize.Statement i := by
  cases i with
  | lit0 => exact Laws.EncodeSize.lit0
  | lit d => exact Laws.EncodeSize.lit d
  | rle n v => exact Laws.EncodeSize.rle n v
  | ref l o => exact Laws.EncodeSize.ref l o

/-- LIT0 is the only one-byte token. -/
theorem one_lt_size {i : Instr} (h : i.wellFormed = true) (h0 : i ≠ .lit0) : 1 < i.size := by
  cases i with
  | lit0 => exact absurd rfl h0
  | lit d =>
    rw [wellFormed_lit] at h
    simp only [Instr.size]
    omega
  | rle n v => simp only [Instr.size]; omega
  | ref l o => simp only [Instr.size]; omega

/-- The first byte 0x00 announces a token of one byte, and only LIT0 is as short as that. -/
theorem encode_first_ne_zero {i : Instr} (h : i.wellFormed = true) (h0 : i ≠ .lit0) :
    ∃ b0 tail, b0 ≠ 0x00#8 ∧ encode i = b0 :: tail := by
  obtain ⟨b0, tail, henc, hsize, -⟩ := encodeSize_statement i h
  refine ⟨b0, tail, ?_, henc⟩
  rintro rfl
  have hzero : tokenSize 0x00#8 = 1 := by decide
  have hlong := one_lt_size h h0
  omega

end Sys2Proof

namespace Sys2Proof.Machine

/-- Settles O31: the encoder appends the encoding of a decision in range, whose fields are those of 30_encoding R77, and
faults for any other. -/
theorem emitAppends : Obligations.EmitAppends := by
  obtain ⟨hlit, hrle, href⟩ := encodeFields
  refine ⟨fun d s => ⟨fun h => ?_, fun h => ?_⟩, fun n v s => ⟨fun h => ?_, fun h => ?_⟩,
    fun l o s => ⟨fun h => ?_, fun h => ?_⟩⟩
  · rw [emit_of_wellFormed s ((wellFormed_lit d).2 h) nofun, hlit d h.1 h.2]
  · exact emit_of_not_wellFormed s (mt (wellFormed_lit d).1 h)
  · rw [emit_of_wellFormed s ((wellFormed_rle n v).2 h) nofun, hrle n v h.1 h.2]
  · exact emit_of_not_wellFormed s (mt (wellFormed_rle n v).1 h)
  · obtain ⟨hl3, hl18, ho1, ho2048⟩ := h
    rw [emit_of_wellFormed s ((wellFormed_ref l o).2 ⟨hl3, hl18, ho1, ho2048⟩) nofun, href l o hl3 hl18 ho1 ho2048]
  · exact emit_of_not_wellFormed s (mt (wellFormed_ref l o).1 h)

/-- Settles O32: a LIT0 decision has no range to be in, a literal of zero bytes is out of its range, and what is emitted
is a token in range other than LIT0. -/
theorem noLit0Emitted : Obligations.NoLit0Emitted := by
  refine ⟨fun s => ⟨rfl, emit_of_not_wellFormed s (by decide)⟩, fun i s t h => ?_⟩
  obtain ⟨hwf, hne, he⟩ | he := emit_cases i s
  · obtain ⟨b0, tail, hb0, henc⟩ := encode_first_ne_zero hwf hne
    rw [he, henc] at h
    cases h
    exact ⟨b0, tail, hb0, rfl⟩
  · rw [he] at h
    cases h

end Sys2Proof.Machine

/-! PROOFS. The match engine (41_match_engine): the run length (R143), the best reference (R148), and the three decisions
with their order (R150 to R153). -/

namespace Sys2Proof.Machine

/-! ### What the engine reads -/

/-- Settles O33: the run length's own characterisation, and a run of at least 4 is one of the two ways to qualify. -/
theorem rleLenIsLongestRun : Obligations.RleLenIsLongestRun := by
  intro inp q hq
  obtain ⟨hpos, hcap, hin, heq, hmax⟩ := rleLen_spec inp q hq
  refine ⟨hpos, hcap, hin, heq, hmax, ?_⟩
  rintro h4 s rfl
  exact (qualifies_eq_true_iff s q).2 (.inl h4)

/-- The candidates come nearest first: they are a part, in order, of one list of the index. -/
theorem candidates_falling {s : State} {n : Nat} (hi : IndexInv s.cfg s.inp n s.idx) (q : Nat) :
    (candidates s q).Pairwise fun a b => b < a := by
  obtain ⟨-, hlists⟩ := (indexInv_iff _ _ _ _).1 hi
  unfold candidates
  split
  · exact .nil
  · next w _ =>
    obtain ⟨-, hfall, -⟩ := hlists w
    exact hfall.sublist ((List.take_sublist _ _).trans List.filter_sublist)

theorem bestRef_of_short {s : State} {q : Nat} (h : s.inp.length - q < 3) : bestRef s q = (0, 0) := if_pos h

/-- Where 3 bytes are left, the best reference is what the search over the candidates keeps, if it is 3 bytes long. -/
theorem bestRef_of_three {s : State} {q : Nat} (h : 3 ≤ s.inp.length - q) :
    bestRef s q =
      if 3 ≤ ((candidates s q).foldl (better s.cfg.overlapMatch s.inp q) (0, 0)).1 then
        (candidates s q).foldl (better s.cfg.overlapMatch s.inp q) (0, 0)
      else (0, 0) := if_neg (Nat.not_lt.2 h)

/-- Where the best reference is below 3 bytes, so is every candidate's match: the search found no match at all, or its
longest one was dropped as too short. -/
theorem matchLen_lt_of_bestRef_lt {s : State} {q : Nat} (hq : 3 ≤ s.inp.length - q) (h : (bestRef s q).1 < 3) :
    ∀ e ∈ candidates s q, matchLen s.cfg.overlapMatch s.inp q e < 3 := by
  intro e he
  rw [bestRef_of_three hq] at h
  obtain ⟨-, hall⟩ | ⟨l1, c, l2, hsplit, hbest, -, hbefore, hafter⟩ :=
    foldl_better_spec s.cfg.overlapMatch s.inp q (candidates s q) (0, 0)
  · exact Nat.lt_of_le_of_lt (hall e he) (by decide)
  · have hshort : matchLen s.cfg.overlapMatch s.inp q c < 3 := by
      by_contra hlong
      rw [hbest, if_pos (Nat.not_lt.1 hlong)] at h
      exact hlong h
    rw [hsplit, List.mem_append, List.mem_cons] at he
    obtain he | rfl | he := he
    · have := hbefore e he
      omega
    · exact hshort
    · have := hafter e he
      omega

/-- Settles O36: the search keeps the first of the longest candidates, those before it match less, and those after it
lie farther back. -/
theorem bestRefIsLongestThenNearest : Obligations.BestRefIsLongestThenNearest := by
  intro s n q hi _
  refine ⟨bestRef_of_short, fun hq => ?_⟩
  obtain hzero | ⟨-, l1, c, l2, hsplit, hbest, h3, hbefore, hafter⟩ := bestRef_cases s q
  · exact .inl ⟨hzero, matchLen_lt_of_bestRef_lt hq (by rw [hzero]; decide)⟩
  · have hfall := candidates_falling hi q
    rw [hsplit] at hfall
    obtain ⟨hfarther, -⟩ := List.pairwise_cons.1 (List.pairwise_append.1 hfall).2.1
    rw [hbest]
    refine .inr ⟨h3, ⟨c, by simp [hsplit], rfl, rfl⟩, fun e he => ?_⟩
    dsimp only
    rw [hsplit, List.mem_append, List.mem_cons] at he
    obtain he | rfl | he := he
    · have := hbefore e he
      exact ⟨by omega, by omega⟩
    · exact ⟨Nat.le_refl _, fun _ => Nat.le_refl _⟩
    · have := hfarther e he
      exact ⟨hafter e he, fun _ => by omega⟩

/-! ### The three decisions -/

/-- A step of a running COMPRESS at a byte of the input is an engine step. -/
theorem step_at_byte {s : State} (hp : s.port = none) (hm : s.mode = .compressing) (hlt : s.pos < s.inp.length) :
    step s = engineStep s := by
  rw [step_compressing hp hm, compressStep, if_pos hlt]

/-- Settles O38: a run length never exceeds the cap, so the RLE decision is in range. -/
theorem engineEmitsRle : Obligations.EngineEmitsRle := by
  intro s v hp hm hv h4 hle
  have hlt : s.pos < s.inp.length := (List.getElem?_eq_some_iff.1 hv).1
  obtain ⟨-, hcap, -⟩ := rleLen_spec s.inp s.pos hlt
  obtain ⟨-, -, hdec⟩ | ⟨hno, -⟩ | ⟨hno, -⟩ := engineStep_cases hv
  · rw [step_at_byte hp hm hlt, hdec, decideRle_eq v s h4 hcap, afterDecision, List.length_replicate]
  · exact absurd ⟨h4, hle⟩ hno
  · exact absurd ⟨h4, hle⟩ hno

/-- Settles O39: the index's invariant keeps the reference in range and its source in the dictionary, which is as long
as `pos`; the appended bytes are those of the copy. -/
theorem engineEmitsRef : Obligations.EngineEmitsRef := by
  intro s hp hm hi hlt hnorle h3
  obtain ⟨-, -, -, hdict, hidx⟩ := hi
  obtain ⟨hwf, hback, -, -⟩ := bestRef_sound hidx h3
  obtain ⟨-, h18, ho1, ho2048⟩ := (wellFormed_ref _ _).1 hwf
  have hlen : s.dict.length = s.pos := by rw [hdict, List.length_take_of_le hlt.le]
  obtain ⟨ext, hcopy, hext, hbytes⟩ :=
    copyFrom_spec (bestRef s s.pos).1 (s.pos - (bestRef s s.pos).2) s.dict (by omega)
  refine ⟨h18, ho1, ho2048, ext, hext, fun i hil => ?_, ?_⟩
  · rw [← hbytes i (by omega), List.getElem?_append_right (by omega), Nat.add_sub_cancel_left]
  · obtain ⟨hr4, hrle, -⟩ | ⟨-, -, hdec⟩ | ⟨-, hshort, -⟩ := engineStep_cases (List.getElem?_eq_getElem hlt)
    · exact absurd ⟨hr4, hrle⟩ hnorle
    · rw [step_at_byte hp hm hlt, hdec, decideRef_eq hwf hcopy, afterDecision, hext]
    · omega

/-- Settles O40: the literal is as long as it grows, so it is in range; the growth says where it stops. -/
theorem engineEmitsLit : Obligations.EngineEmitsLit := by
  intro s hp hm hlt hnorle hnoref
  have hv : s.inp[s.pos]? = some s.inp[s.pos] := List.getElem?_eq_getElem hlt
  obtain ⟨n, h1, h63, hin, hgrow, hstop, hlit⟩ := decideLit_eq hv
  refine ⟨n, h1, h63, hin, hgrow, hstop, ?_⟩
  obtain ⟨hr4, hrle, -⟩ | ⟨-, h3, -⟩ | ⟨-, -, hdec⟩ := engineStep_cases hv
  · exact absurd ⟨hr4, hrle⟩ hnorle
  · omega
  · have hlen : ((s.inp.drop s.pos).take n).length = n := by
      rw [List.length_take, List.length_drop]
      omega
    rw [step_at_byte hp hm hlt, hdec, hlit, afterDecision, hlen]

/-- Settles O37: the three decisions exclude one another and one of them applies, ties going to the RLE. -/
theorem decisionOrder : Obligations.DecisionOrder := by
  intro s hp hm hi hlt
  by_cases hrle : 4 ≤ rleLen s.inp s.pos ∧ (bestRef s s.pos).1 ≤ rleLen s.inp s.pos
  · exact ⟨_, _, engineEmitsRle s _ hp hm (List.getElem?_eq_getElem hlt) hrle.1 hrle.2, rfl,
      fun _ _ => ⟨_, rfl⟩, by omega, by omega⟩
  · by_cases href : 3 ≤ (bestRef s s.pos).1
    · obtain ⟨-, -, -, ext, -, -, hstep⟩ := engineEmitsRef s hp hm hi hlt hrle href
      exact ⟨_, _, hstep, rfl, fun h4 hle => absurd ⟨h4, hle⟩ hrle, fun _ _ => rfl, by omega⟩
    · obtain ⟨n, -, -, -, -, -, hstep⟩ := engineEmitsLit s hp hm hlt hrle (Nat.not_le.1 href)
      exact ⟨_, _, hstep, rfl, fun h4 hle => absurd ⟨h4, hle⟩ hrle, by omega, fun _ _ => ⟨_, rfl⟩⟩

end Sys2Proof.Machine

/-! PROOFS. The assembler (42_stream_assembler): the magic check of DECOMPRESS (R199). -/

namespace Sys2Proof.Machine

/-- A container as long as a header, without the magic, fails the second check of the start of DECOMPRESS. -/
theorem startDecompress_of_ne_magic {d : List Byte} (hlen : 16 ≤ d.length) (hmagic : d.take 8 ≠ magic) (s : State) :
    startDecompress d s = .next (aborted .badMagic { s with mode := .decompressing, c := d, out := [] }) := by
  obtain ⟨hshort, -⟩ | ⟨-, -, h⟩ | ⟨-, heq, -⟩ := startDecompress_cases d s
  · omega
  · exact h
  · exact absurd heq hmagic

/-- Settles O25: an idle step accepts the command, and the magic check aborts it. -/
theorem magicMismatch : Obligations.MagicMismatch := by
  intro s d hm hp hlen hmagic
  have hstep := (step_accept hp hm).trans (startDecompress_of_ne_magic hlen hmagic { s with port := none })
  exact ⟨_, hstep, rfl, rfl⟩

end Sys2Proof.Machine

/-! PROOFS. Encoding and decoding (30_encoding section 5): each is the other's inverse on tokens in range, and the first
byte alone fixes a token's length (R81, R83). -/

namespace Sys2Proof

/-! ### Each token has one encoding -/

/-- The byte that stands for a number below 256 has that value. -/
theorem toNat_byte {n : Nat} (h : n < 256) : (BitVec.ofNat 8 n).toNat = n := by
  rw [BitVec.toNat_ofNat, Nat.mod_eq_of_lt h]

/-- Settles O7: an encoding's first byte selects the token's branch, which reads the fields back from its bytes. -/
theorem decodeAfterEncode : Obligations.DecodeAfterEncode := by
  intro i rest hwf
  cases i with
  | lit0 => exact decode_zero rest
  | lit d =>
    obtain ⟨h1, h63⟩ := (wellFormed_lit d).1 hwf
    have hb : (BitVec.ofNat 8 d.length).toNat = d.length := toNat_byte (by omega)
    change decode (BitVec.ofNat 8 d.length :: (d ++ rest)) = _
    rw [decode_eq_decodeLit (by omega) (by omega), hb, decodeLit, if_neg (by simp), List.take_left, List.drop_left]
  | rle n v =>
    obtain ⟨h4, hmax⟩ := (wellFormed_rle n v).1 hwf
    have hb0 : (BitVec.ofNat 8 (64 + (n - 4) / 256)).toNat = 64 + (n - 4) / 256 := toNat_byte (by omega)
    have hb1 : (BitVec.ofNat 8 ((n - 4) % 256)).toNat = (n - 4) % 256 := toNat_byte (by omega)
    have hcount : (64 + (n - 4) / 256) % 64 * 256 + (n - 4) % 256 + 4 = n := by omega
    rw [encode_rle n v (by omega)]
    change decode (_ :: _ :: v :: rest) = _
    rw [decode_eq_decodeRle (by omega) (by omega), decodeRle_cons, hb0, hb1, hcount]
  | ref l o =>
    obtain ⟨h3, h18, h1, h2048⟩ := (wellFormed_ref l o).1 hwf
    have hb0 : (BitVec.ofNat 8 (128 + (l - 3) * 8 + (o - 1) / 256)).toNat = 128 + (l - 3) * 8 + (o - 1) / 256 :=
      toNat_byte (by omega)
    have hb1 : (BitVec.ofNat 8 ((o - 1) % 256)).toNat = (o - 1) % 256 := toNat_byte (by omega)
    have hlength : (128 + (l - 3) * 8 + (o - 1) / 256) / 8 % 16 + 3 = l := by omega
    have hoffset : (128 + (l - 3) * 8 + (o - 1) / 256) % 8 * 256 + (o - 1) % 256 + 1 = o := by omega
    rw [encode_ref l o (by omega) (by omega)]
    change decode (_ :: _ :: rest) = _
    rw [decode_eq_decodeRef (by omega), decodeRef_cons, hb0, hb1, hlength, hoffset]

/-- The bytes of a reference token are the encoding of what they decode to, which is in range. -/
theorem encode_decoded_ref {b0 : Byte} (b1 : Byte) (h : 128 ≤ b0.toNat) :
    (Instr.ref (b0.toNat / 8 % 16 + 3) (b0.toNat % 8 * 256 + b1.toNat + 1)).wellFormed = true ∧
    encode (.ref (b0.toNat / 8 % 16 + 3) (b0.toNat % 8 * 256 + b1.toNat + 1)) = [b0, b1] := by
  have hb0 := byte_lt b0
  have hb1 := byte_lt b1
  refine ⟨(wellFormed_ref _ _).2 (by omega), ?_⟩
  have e0 : 128 + (b0.toNat / 8 % 16 + 3 - 3) * 8 + (b0.toNat % 8 * 256 + b1.toNat + 1 - 1) / 256 = b0.toNat := by omega
  have e1 : (b0.toNat % 8 * 256 + b1.toNat + 1 - 1) % 256 = b1.toNat := by omega
  rw [encode_ref _ _ (by omega) (by omega), e0, e1, byte_ofNat_toNat, byte_ofNat_toNat]

/-- The bytes of an RLE token are the encoding of what they decode to, which is in range. -/
theorem encode_decoded_rle {b0 : Byte} (b1 v : Byte) (h1 : 64 ≤ b0.toNat) (h2 : b0.toNat < 128) :
    (Instr.rle (b0.toNat % 64 * 256 + b1.toNat + 4) v).wellFormed = true ∧
    encode (.rle (b0.toNat % 64 * 256 + b1.toNat + 4) v) = [b0, b1, v] := by
  have hb1 := byte_lt b1
  refine ⟨(wellFormed_rle _ _).2 (by omega), ?_⟩
  have e0 : 64 + (b0.toNat % 64 * 256 + b1.toNat + 4 - 4) / 256 = b0.toNat := by omega
  have e1 : (b0.toNat % 64 * 256 + b1.toNat + 4 - 4) % 256 = b1.toNat := by omega
  rw [encode_rle _ _ (by omega), e0, e1, byte_ofNat_toNat, byte_ofNat_toNat]

/-- Settles O8: the decoder's four answers for a first byte, each read back into the bytes it came from. -/
theorem encodeAfterDecode : Obligations.EncodeAfterDecode := by
  intro bs i rest h
  cases bs with
  | nil => cases h
  | cons b0 bs =>
    obtain ⟨h128, ⟨-, g⟩ | ⟨b1, r, rfl, g⟩⟩ | ⟨h64, h128, ⟨-, g⟩ | ⟨b1, v, r, rfl, g⟩⟩ | ⟨rfl, g⟩ |
      ⟨h1, h64, ⟨-, g⟩ | ⟨hlen, g⟩⟩ := decode_cases b0 bs <;> rw [g] at h <;> cases h
    · obtain ⟨hwf, henc⟩ := encode_decoded_ref b1 h128
      exact ⟨hwf, by rw [henc]; rfl⟩
    · obtain ⟨hwf, henc⟩ := encode_decoded_rle b1 v h64 h128
      exact ⟨hwf, by rw [henc]; rfl⟩
    · exact ⟨rfl, rfl⟩
    · have htake : (bs.take b0.toNat).length = b0.toNat := List.length_take_of_le hlen
      refine ⟨(wellFormed_lit _).2 (by omega), ?_⟩
      rw [encode, htake, byte_ofNat_toNat, List.cons_append, List.take_append_drop]

/-! ### The first byte fixes the length -/

/-- Settles O9: in each of the decoder's branches a token is cut short exactly when a byte of it is missing. -/
theorem firstByteFixesLength : Obligations.FirstByteFixesLength := by
  intro b0 rest
  rw [tokenSize_eq]
  obtain ⟨h128, hrest⟩ | ⟨h64, h128, hrest⟩ | ⟨rfl, g⟩ | ⟨h1, h64, hrest⟩ := decode_cases b0 rest
  · rw [if_pos h128]
    obtain ⟨rfl, g⟩ | ⟨b1, r, rfl, g⟩ := hrest
    · exact ⟨fun _ => g, fun h => absurd h (by decide)⟩
    · exact ⟨fun h => absurd h (by simp), fun _ => ⟨_, g, rfl⟩⟩
  · rw [if_neg (by omega), if_pos h64]
    obtain ⟨hshort, g⟩ | ⟨b1, v, r, rfl, g⟩ := hrest
    · exact ⟨fun _ => g, fun h => by omega⟩
    · exact ⟨fun h => absurd h (by simp), fun _ => ⟨_, g, rfl⟩⟩
  · exact ⟨fun h => absurd h (by simp), fun _ => ⟨_, g, rfl⟩⟩
  · rw [if_neg (by omega), if_neg (by omega)]
    obtain ⟨hshort, g⟩ | ⟨hlen, g⟩ := hrest
    · exact ⟨fun _ => g, fun h => by omega⟩
    · refine ⟨fun h => by omega, fun _ => ⟨.lit (rest.take b0.toNat), ?_, ?_⟩⟩
      · rw [g, Nat.add_comm 1, List.drop_succ_cons]
      · rw [Instr.size, List.length_take_of_le hlen]

/-- Settles O1: each word is the encoding of its token, or LIT0's byte. -/
theorem specWordsDecode : Obligations.SpecWordsDecode :=
  ⟨decodeAfterEncode .lit0 [0x02#8] rfl, decodeAfterEncode (.lit [0x41#8, 0x42#8, 0x43#8]) [] rfl,
    decodeAfterEncode (.rle 5000 0x41#8) [] rfl, decodeAfterEncode (.ref 6 6) [] rfl,
    decodeAfterEncode (.ref 10 300) [] rfl, decodeAfterEncode (.ref 18 2048) [] rfl⟩

end Sys2Proof

/-! PROOFS. The tokens' meanings (40_token_codec sections 2 to 5) and the decoder's loop (section 1). -/

namespace Sys2Proof.Machine

/-! ### The tokens -/

/-- LIT0 answers one state, whatever the machine holds. -/
theorem exec_lit0 (s : State) : exec .lit0 s = .next { s with rp := s.rp + 1 } := rfl

/-- Settles O10: the meaning of LIT0 has one case. -/
theorem lit0Completes : Obligations.Lit0Completes := exec_lit0

/-- A token other than LIT0 whose bytes do not lie before `end` is Truncated. -/
theorem exec_truncated {i : Instr} {s : State} (h0 : i ≠ .lit0) (h : s.endp < s.rp + i.size) :
    exec i s = .next (aborted .truncated s) := by
  cases i with
  | lit0 => exact absurd rfl h0
  | lit d => exact if_pos h
  | rle n v => exact if_pos h
  | ref l o => exact if_pos h

/-- A reference whose bytes lie before `end` and whose offset lies past the output is an InvalidOffset. -/
theorem exec_invalidOffset {l o : Nat} {s : State} (hend : s.rp + 2 ≤ s.endp) (ho : s.out.length < o) :
    exec (.ref l o) s = .next (aborted .invalidOffset s) := by
  rw [exec, execRef, if_neg (by omega), if_pos ho, raise_eq]

/-- A reference that passes both checks and still has no expansion has read a byte that does not exist. -/
theorem exec_ref_noSuchByte {l o : Nat} {s : State} (hend : s.rp + 2 ≤ s.endp) (ho : o ≤ s.out.length)
    (h : expand (.ref l o) s.out = none) : exec (.ref l o) s = .fault .noSuchByte := by
  rw [expand, if_neg (Nat.not_lt.2 ho)] at h
  rw [exec, execRef, if_neg (Nat.not_lt.2 hend), if_neg (Nat.not_lt.2 ho), h]

/-- A token other than LIT0 whose bytes lie before `end` and that expands OUT has the append to OUT as its meaning. -/
theorem exec_eq_putOut {i : Instr} {s : State} {m : Memory} (h0 : i ≠ .lit0) (hend : s.rp + i.size ≤ s.endp)
    (h : expand i s.out = some m) : exec i s = putOut m i.size s := by
  cases i with
  | lit0 => exact absurd rfl h0
  | lit d => cases h; exact if_neg (Nat.not_lt.2 hend)
  | rle n v => cases h; exact if_neg (Nat.not_lt.2 hend)
  | ref l o =>
    have ho : ¬ s.out.length < o := fun hc => by rw [expand, if_pos hc] at h; cases h
    exact exec_ref_of_expand hend (Nat.not_lt.1 ho) h

/-- Settles O11: the expansion of a literal is an append, and its size decides between effect and error. -/
theorem litCompletes : Obligations.LitCompletes := by
  intro d s
  have hsize : (Instr.lit d).size = 1 + d.length := rfl
  refine ⟨fun hend hroom => ?_, fun hend => exec_truncated nofun (by omega)⟩
  exact exec_of_expand (i := .lit d) (by omega) rfl (by rwa [List.length_append])

/-- Settles O12: the expansion of a run is an append, and its size decides between effect and error. -/
theorem rleCompletes : Obligations.RleCompletes := by
  intro n v s
  refine ⟨fun hend hroom => ?_, fun hend => exec_truncated nofun hend⟩
  exact exec_of_expand (i := .rle n v) hend rfl (by rwa [List.length_append, List.length_replicate])

/-- Settles O14: the size is checked before the offset. -/
theorem refErrorOrder : Obligations.RefErrorOrder := fun _ _ _ =>
  ⟨fun hend => exec_truncated nofun hend, exec_invalidOffset⟩

/-- Everything a token can do: LIT0's advance, one of the two errors, a read before the output's start, or the append
of its expansion to OUT. -/
theorem exec_cases (i : Instr) (s : State) :
    (i = .lit0 ∧ exec i s = .next { s with rp := s.rp + 1 }) ∨
    (i ≠ .lit0 ∧ s.endp < s.rp + i.size ∧ exec i s = .next (aborted .truncated s)) ∨
    (∃ l o, i = .ref l o ∧ s.rp + 2 ≤ s.endp ∧ s.out.length < o ∧ exec i s = .next (aborted .invalidOffset s)) ∨
    (∃ l o, i = .ref l o ∧ o ≤ s.out.length ∧ expand i s.out = none ∧ exec i s = .fault .noSuchByte) ∨
    (i ≠ .lit0 ∧ s.rp + i.size ≤ s.endp ∧ ∃ m, expand i s.out = some m ∧ exec i s = putOut m i.size s) := by
  by_cases h0 : i = .lit0
  · exact .inl ⟨h0, by rw [h0, exec_lit0]⟩
  refine .inr ?_
  by_cases hend : s.endp < s.rp + i.size
  · exact .inl ⟨h0, hend, exec_truncated h0 hend⟩
  refine .inr ?_
  rw [Nat.not_lt] at hend
  cases hm : expand i s.out with
  | some m => exact .inr (.inr ⟨h0, hend, m, rfl, exec_eq_putOut h0 hend hm⟩)
  | none =>
    cases i with
    | lit0 => exact absurd rfl h0
    | lit d => cases hm
    | rle n v => cases hm
    | ref l o =>
      by_cases ho : s.out.length < o
      · exact .inl ⟨l, o, rfl, hend, ho, exec_invalidOffset hend ho⟩
      · rw [Nat.not_lt] at ho
        exact .inr (.inl ⟨l, o, rfl, ho, rfl, exec_ref_noSuchByte hend ho hm⟩)

/-- Settles O15: of the things a token can do, those that answer a next state. -/
theorem tokenFrame : Obligations.TokenFrame := by
  intro i s t h
  obtain ⟨rfl, g⟩ | ⟨-, -, g⟩ | ⟨-, -, -, -, -, g⟩ | ⟨-, -, -, -, -, g⟩ | ⟨-, -, m, hm, g⟩ := exec_cases i s <;>
    rw [g] at h
  · cases h
    exact .inr (.inr ⟨[], by rw [List.append_nil]; rfl, by rw [List.append_nil]; rfl⟩)
  · cases h
    exact .inl rfl
  · cases h
    exact .inr (.inl rfl)
  · cases h
  · obtain ⟨-, rfl⟩ := putOut_eq_next.1 h
    obtain ⟨ext, rfl, -⟩ := expand_append hm
    exact .inr (.inr ⟨ext, rfl, hm⟩)

/-! ### The decoder's loop -/

/-- A running DECOMPRESS with the token's bytes in the container runs the token decoded from them. -/
theorem fetch_token {s : State} {i : Instr} {rest : List Byte} (hout : s.out.length < s.orig.toNat)
    (hrp : s.rp < s.endp) (hend : s.endp ≤ s.c.length)
    (h : decode ((s.c.drop s.rp).take (s.endp - s.rp)) = .ok (i, rest)) : fetch s = .token i := by
  rw [fetch, if_neg (Nat.not_le.2 hout), if_neg (Nat.not_le.2 hrp), Memory.slice, if_pos (by omega)]
  dsimp only
  rw [h]

/-- A running DECOMPRESS at bytes that hold no whole token finds Truncated. -/
theorem fetch_cut {s : State} {e : DecodeError} (hout : s.out.length < s.orig.toNat)
    (hrp : s.rp < s.endp) (hend : s.endp ≤ s.c.length)
    (h : decode ((s.c.drop s.rp).take (s.endp - s.rp)) = .error e) : fetch s = .raised .truncated := by
  rw [fetch, if_neg (Nat.not_le.2 hout), if_neg (Nat.not_le.2 hrp), Memory.slice, if_pos (by omega)]
  dsimp only
  rw [h]

theorem decodeStep_of_stop {s : State} (h : fetch s = .stop) :
    decodeStep s = .next (completed (s.out.take s.orig.toNat) s) := by
  rw [decodeStep, h]
  rfl

theorem decodeStep_of_raised {s : State} {e : ErrorKind} (h : fetch s = .raised e) :
    decodeStep s = .next (aborted e s) := by
  rw [decodeStep, h]
  rfl

theorem decodeStep_of_token {s : State} {i : Instr} (h : fetch s = .token i) : decodeStep s = exec i s := by
  rw [decodeStep, h]

/-- Settles O16: the fetch finds the token, and the decoder step is its meaning. -/
theorem stepRunsDecodedToken : Obligations.StepRunsDecodedToken := by
  intro s i rest hp hm hout hrp hend h
  rw [List.drop_take] at h
  rw [step_decompressing hp hm, decodeStep_of_token (fetch_token hout hrp hend h)]

section AtToken

variable {s : State} {b0 : Byte} (hp : s.port = none) (hm : s.mode = .decompressing)
  (hout : s.out.length < s.orig.toNat) (hrp : s.rp < s.endp) (hend : s.endp ≤ s.c.length) (hb : s.c[s.rp]? = some b0)

include hrp hend hb in
/-- The bytes the decoder reads are the one at `rp` and those after it up to `end`. -/
theorem fetched_eq_cons :
    (s.c.drop s.rp).take (s.endp - s.rp) = b0 :: (s.c.drop (s.rp + 1)).take (s.endp - s.rp - 1) := by
  obtain ⟨b, rest, hb', hbytes, -, rfl, -⟩ := fetched_bytes s hrp hend
  rw [hb] at hb'
  cases hb'
  exact hbytes

include hp hm hout hrp hend hb

/-- A decoder step where the token that begins at `rp` runs past `end`. -/
theorem step_cutShort (hcut : s.endp < s.rp + tokenSize b0) : step s = .next (aborted .truncated s) := by
  have hdec := (firstByteFixesLength b0 ((s.c.drop (s.rp + 1)).take (s.endp - s.rp - 1))).1 (by
    rw [List.length_take]
    omega)
  rw [← fetched_eq_cons hrp hend hb] at hdec
  rw [step_decompressing hp hm, decodeStep_of_raised (fetch_cut hout hrp hend hdec)]

/-- A decoder step where the bytes from `rp` on begin with a whole token. -/
theorem step_eq_exec {i : Instr} {rest : List Byte}
    (h : decode (b0 :: (s.c.drop (s.rp + 1)).take (s.endp - s.rp - 1)) = .ok (i, rest)) : step s = exec i s := by
  rw [← fetched_eq_cons hrp hend hb] at h
  rw [step_decompressing hp hm, decodeStep_of_token (fetch_token hout hrp hend h)]

end AtToken

/-- The byte at an index inside a front part of a sequence begins what is left of the part there. -/
theorem take_drop_eq_cons {m : Memory} {a n : Nat} {b : Byte} (h : m[a]? = some b) :
    (m.drop a).take (n + 1) = b :: (m.drop (a + 1)).take n := by
  obtain ⟨ha, rfl⟩ := List.getElem?_eq_some_iff.1 h
  rw [List.drop_eq_getElem_cons ha, List.take_succ_cons]

/-- Settles O17: the first byte announces `1 + g` bytes; a literal that is all there has its effect. -/
theorem stepDecodesLit : Obligations.StepDecodesLit := by
  intro s b0 hp hm hout hrp hend hb h1 h63
  refine ⟨fun hcut => step_cutShort hp hm hout hrp hend hb ?_, fun hall hroom => ?_⟩
  · rw [tokenSize_eq, if_neg (by omega), if_neg (by omega)]
    omega
  · have hlen : ((s.c.drop (s.rp + 1)).take b0.toNat).length = b0.toNat := by
      rw [List.length_take, List.length_drop]
      omega
    have hdec := litFieldsDecode b0 ((s.c.drop (s.rp + 1)).take (s.endp - s.rp - 1)) h1 h63 (by
      rw [List.length_take, List.length_drop]
      omega)
    rw [List.take_take, Nat.min_eq_left (by omega)] at hdec
    rw [step_eq_exec hp hm hout hrp hend hb hdec, (litCompletes _ s).1 (by omega) (by rwa [hlen]), hlen, Nat.add_assoc]

/-- Settles O18: the first byte announces three bytes; a run that is all there has its effect. -/
theorem stepDecodesRle : Obligations.StepDecodesRle := by
  intro s b0 hp hm hout hrp hend hb h64 h127
  refine ⟨fun hcut => step_cutShort hp hm hout hrp hend hb ?_, fun b1 v hall hb1 hv hroom => ?_⟩
  · rw [tokenSize_eq, if_neg (by omega), if_pos h64]
    exact hcut
  · obtain ⟨n, hn⟩ : ∃ n, s.endp - s.rp - 1 = n + 1 + 1 := ⟨s.endp - s.rp - 3, by omega⟩
    have hdec := (rleFieldsDecode b0 b1 v ((s.c.drop (s.rp + 1 + 1 + 1)).take n) h64 h127).1
    rw [← take_drop_eq_cons hv, ← take_drop_eq_cons hb1, ← hn] at hdec
    rw [step_eq_exec hp hm hout hrp hend hb hdec, (rleCompletes _ v s).1 hall hroom]

/-- Settles O19: the first byte announces two bytes; a reference that is all there has its effect or an offset past the
output. -/
theorem stepDecodesRef : Obligations.StepDecodesRef := by
  intro s b0 hp hm hout hrp hend hb h128
  have hexec : ∀ b1 : Byte, s.rp + 2 ≤ s.endp → s.c[s.rp + 1]? = some b1 →
      step s = exec (.ref (b0.toNat / 8 % 16 + 3) ((b0.toNat % 8) * 256 + b1.toNat + 1)) s := by
    intro b1 hall hb1
    obtain ⟨n, hn⟩ : ∃ n, s.endp - s.rp - 1 = n + 1 := ⟨s.endp - s.rp - 2, by omega⟩
    have hdec := (refFieldsDecode.1 b0 b1 ((s.c.drop (s.rp + 1 + 1)).take n) h128).1
    rw [← take_drop_eq_cons hb1, ← hn] at hdec
    exact step_eq_exec hp hm hout hrp hend hb hdec
  refine ⟨fun hcut => step_cutShort hp hm hout hrp hend hb ?_, fun b1 hall hb1 ho => ?_, fun b1 hall hb1 ho hroom => ?_⟩
  · rw [tokenSize_eq, if_pos h128]
    exact hcut
  · rw [hexec b1 hall hb1, exec_invalidOffset hall ho]
  · obtain ⟨ext, hlen, hcopy, hstep⟩ := refCompletes _ _ s (by omega) ho hall hroom
    exact ⟨ext, hlen, fun i hi => hcopy i (hlen ▸ hi), (hexec b1 hall hb1).trans hstep⟩

/-- Settles O20: the byte 0x00 is LIT0. -/
theorem stepDecodesLit0 : Obligations.StepDecodesLit0 := by
  intro s hp hm hout hrp hend hb
  rw [step_eq_exec hp hm hout hrp hend hb (decode_zero _), exec_lit0]

/-- Settles O21: the stop rule is the fetch's first check. -/
theorem stopRule : Obligations.StopRule := by
  intro s hp hm hout
  rw [step_decompressing hp hm, decodeStep_of_stop (if_pos hout)]

/-- Settles O22: the exhausted payload is the fetch's second check. -/
theorem exhaustedPayload : Obligations.ExhaustedPayload := by
  intro s hp hm hout hend
  have hfetch : fetch s = .raised .truncated := by rw [fetch, if_neg (Nat.not_le.2 hout), if_pos hend]
  rw [step_decompressing hp hm, decodeStep_of_raised hfetch]

end Sys2Proof.Machine

/-! PROOFS. The machine's interface and what every step keeps: waiting and refusing (70_reset sections 1 and 5), the
start and the end of a command (42_stream_assembler sections 1 to 3, 60_exceptions section 4), the parameters and the
record (10_state sections 7, 10 and 11). -/

namespace Sys2Proof.Machine

/-! ### At rest, and while a command runs -/

/-- Settles O46: the power-on state with the spec's values. -/
theorem resetState : Obligations.ResetState := ⟨rfl, rfl, rfl, rfl, rfl, rfl, rfl⟩

/-- Settles O50: the two cases of a step in which no command runs or is accepted. -/
theorem waitsAndRefuses : Obligations.WaitsAndRefuses := by
  refine ⟨fun s => step_idle, fun s cmd hp hm => ?_⟩
  cases hmode : s.mode with
  | idle => exact absurd hmode hm
  | compressing => simp [step, hp, hmode]
  | decompressing => simp [step, hp, hmode]

/-- Settles O23: the state after an error is that of the one error entry. -/
theorem errorAborts : Obligations.ErrorAborts := fun e s =>
  ⟨aborted e s, raise_eq e s, rfl, rfl, rfl, rfl, rfl, rfl, rfl, rfl, rfl⟩

/-! ### The start of a command -/

/-- The state in which a COMPRESS of `d` begins: the machine's of `s` with an input not yet read. -/
def compressStart (d : List Byte) (s : State) : State :=
  { s with port := none, mode := .compressing, inp := d, pos := 0, dict := [], idx := [], tok := [] }

/-- The state in which a DECOMPRESS of `d` begins, its header's fields being `o` and `p`. -/
def decompressStart (d : List Byte) (o p : U32) (s : State) : State :=
  { s with port := none, mode := .decompressing, c := d, out := [], orig := o, psize := p,
           endp := payloadEnd s.cfg d.length p, rp := 16 }

/-- The state in which a command has ended with the record `(st, r)`, the parameters being those of `s`: all else is as
after power-on. -/
def ended (st : Status) (r : List Byte) (s : State) : State := { State.resetWith s.cfg with status := st, result := r }

theorem ended_record (st : Status) (r : List Byte) (s : State) : (ended st r s).record = (st, r) := rfl

/-- An error of a running command ends it. -/
theorem aborted_eq_ended {s : State} (hp : s.port = none) (e : ErrorKind) : aborted e s = ended (.err e) [] s := by
  change ({ State.resetWith s.cfg with port := s.port, status := .err e } : State) = _
  rw [hp]
  rfl

/-- The success of a running command ends it. -/
theorem completed_eq_ended {s : State} (hp : s.port = none) (r : List Byte) : completed r s = ended .ok r s := by
  change ({ State.resetWith s.cfg with port := s.port, status := .ok, result := r } : State) = _
  rw [hp]
  rfl

/-- The step that accepts a COMPRESS of an input that its header can record and IN can hold. -/
theorem step_compress {s : State} {d : List Byte} (hm : s.mode = .idle) (hp : s.port = some (.compress d))
    (hlen : d.length < 2 ^ 32) (hroom : fits s.cfg.inCapacity d.length = true) :
    step s = .next (compressStart d s) := by
  rw [step_accept hp hm, accept]
  obtain ⟨hbig, -⟩ | ⟨-, -, g⟩ | ⟨-, hno, -⟩ := startCompress_cases d { s with port := none }
  · exact absurd hlen (Nat.not_lt.2 hbig)
  · exact g
  · rw [show fits s.cfg.inCapacity d.length = false from hno] at hroom
    cases hroom

/-- The step that meets a COMPRESS of an input whose length no header can record. -/
theorem step_compress_tooLarge {s : State} {d : List Byte} (hm : s.mode = .idle) (hp : s.port = some (.compress d))
    (hlen : 2 ^ 32 ≤ d.length) : step s = .next (ended (.err .tooLarge) [] s) := by
  rw [step_accept hp hm, accept]
  obtain ⟨-, g⟩ | ⟨hsmall, -⟩ | ⟨hsmall, -⟩ := startCompress_cases d { s with port := none }
  · exact g
  · exact absurd hsmall (Nat.not_lt.2 hlen)
  · exact absurd hsmall (Nat.not_lt.2 hlen)

/-- The step that meets a COMPRESS of an input IN cannot hold. -/
theorem step_compress_stuck {s : State} {d : List Byte} (hm : s.mode = .idle) (hp : s.port = some (.compress d))
    (hlen : d.length < 2 ^ 32) (hroom : fits s.cfg.inCapacity d.length = false) :
    step s = .fault .capacityExceeded := by
  rw [step_accept hp hm, accept]
  obtain ⟨hbig, -⟩ | ⟨-, hyes, -⟩ | ⟨-, -, g⟩ := startCompress_cases d { s with port := none }
  · exact absurd hlen (Nat.not_lt.2 hbig)
  · rw [show fits s.cfg.inCapacity d.length = true from hyes] at hroom
    cases hroom
  · exact g

/-- The step that accepts a DECOMPRESS of a container with a whole header. -/
theorem step_decompress {s : State} {d : List Byte} (hm : s.mode = .idle) (hp : s.port = some (.decompress d))
    (hlen : 16 ≤ d.length) (hmagic : d.take 8 = magic) :
    ∃ o p, le32 d 8 = some o ∧ le32 d 12 = some p ∧ step s = .next (decompressStart d o p s) := by
  rw [step_accept hp hm, accept]
  obtain ⟨hshort, -⟩ | ⟨-, hne, -⟩ | ⟨-, -, o, p, ho, hps, g⟩ := startDecompress_cases d { s with port := none }
  · omega
  · exact absurd hmagic hne
  · exact ⟨o, p, ho, hps, g⟩

/-- The step that meets a DECOMPRESS of a container shorter than a header. -/
theorem step_decompress_short {s : State} {d : List Byte} (hm : s.mode = .idle) (hp : s.port = some (.decompress d))
    (hlen : d.length < 16) : step s = .next (ended (.err .truncated) [] s) := by
  rw [step_accept hp hm, accept]
  obtain ⟨-, g⟩ | ⟨hlong, -⟩ | ⟨hlong, -⟩ := startDecompress_cases d { s with port := none }
  · exact g
  · omega
  · omega

/-- The step that meets a DECOMPRESS of a container without the magic. -/
theorem step_decompress_badMagic {s : State} {d : List Byte} (hm : s.mode = .idle)
    (hp : s.port = some (.decompress d)) (hlen : 16 ≤ d.length) (hmagic : d.take 8 ≠ magic) :
    step s = .next (ended (.err .badMagic) [] s) :=
  (step_accept hp hm).trans (startDecompress_of_ne_magic hlen hmagic { s with port := none })

/-- Settles O24: the two accepting steps, and `end` for each value of PAYLOAD_BOUND. -/
theorem commandsStartFresh : Obligations.CommandsStartFresh := by
  refine ⟨fun s d => step_compress, fun s d hm hp hlen hmagic => ?_⟩
  obtain ⟨o, p, ho, hps, hstep⟩ := step_decompress hm hp hlen hmagic
  refine ⟨_, hstep, rfl, rfl, rfl, rfl, ho, hps, fun hb => ?_, fun hb => ?_, rfl, rfl, rfl⟩
  · simp only [decompressStart, payloadEnd, hb]
  · simp only [decompressStart, payloadEnd, hb, headerSize]

/-- Settles O26: the two checks abort the command, and the codes are those of the table. -/
theorem sizeChecks : Obligations.SizeChecks := by
  refine ⟨fun s d hm hp hlen => ?_, fun s d hm hp hlen => ?_, rfl, rfl, rfl, rfl⟩
  · exact ⟨_, step_decompress_short hm hp hlen, rfl, rfl⟩
  · exact ⟨_, step_compress_tooLarge hm hp hlen, rfl, rfl⟩

/-- Settles O60: the start of COMPRESS asks for room in IN, and a token that is not LIT0 for room in OUT. -/
theorem stuckPastCapacity : Obligations.StuckPastCapacity := by
  refine ⟨fun s d => step_compress_stuck, fun i m s hm h0 hend hroom => ?_⟩
  rw [exec_eq_putOut h0 hend hm, putOut_of_not_fits hroom]

/-! ### The end of a command -/

/-- Settles O28: past the last byte, the padding's length decides between TooLarge and the container. -/
theorem compressFinishes : Obligations.CompressFinishes := by
  intro s hp hm hpos
  refine ⟨fun hbig => ?_, fun hsmall => ?_⟩
  · obtain ⟨-, g⟩ | ⟨hlt, -⟩ := finishCompress_cases s
    · exact ⟨_, by rw [step_compressing hp hm, compressStep, if_neg (Nat.not_lt.2 hpos), g], rfl, rfl⟩
    · exact absurd hlt (Nat.not_lt.2 hbig)
  · obtain ⟨hpad, hmul⟩ := padCount_spec s.tok.length
    refine ⟨padCount s.tok.length, hpad, hmul, ?_⟩
    rw [step_compressing_completes hp hm hpos hsmall, container, padded_length, header, padded]

/-- Everything a step that answers a next state can be: the machine waits, begins a command, makes a decision, takes a
token, or ends a command with a result or an error. -/
inductive StepsTo (s : State) : State → Prop
  | waits (hp : s.port = none) (hm : s.mode = .idle) : StepsTo s s
  | beginsCompress (hm : s.mode = .idle) (d : List Byte) (hlen : d.length < 2 ^ 32)
      (hroom : fits s.cfg.inCapacity d.length = true) : StepsTo s (compressStart d s)
  | beginsDecompress (hm : s.mode = .idle) (d : List Byte) (o p : U32) (hlen : 16 ≤ d.length)
      (hmagic : d.take 8 = magic) (ho : le32 d 8 = some o) (hps : le32 d 12 = some p) :
      StepsTo s (decompressStart d o p s)
  | decides {t : State} (hp : s.port = none) (hm : s.mode = .compressing) (hpos : s.pos < s.inp.length)
      (h : engineStep s = .next t) : StepsTo s t
  | takes {t : State} (hp : s.port = none) (hm : s.mode = .decompressing) (i : Instr) (hi : fetch s = .token i)
      (h : exec i s = .next t) : StepsTo s t
  | completes (hp : s.port = none) (r : List Byte) : StepsTo s (ended .ok r s)
  | aborts (hp : s.port = none ∨ s.mode = .idle) (e : ErrorKind) : StepsTo s (ended (.err e) [] s)

/-- A command is begun, or its checks abort it. -/
theorem stepsTo_of_accept {s t : State} {cmd : Command} (hm : s.mode = .idle) (hp : s.port = some cmd)
    (h : step s = .next t) : StepsTo s t := by
  cases cmd with
  | compress d =>
    by_cases hlen : d.length < 2 ^ 32
    · cases hroom : fits s.cfg.inCapacity d.length with
      | true =>
        rw [step_compress hm hp hlen hroom] at h
        cases h
        exact .beginsCompress hm d hlen hroom
      | false =>
        rw [step_compress_stuck hm hp hlen hroom] at h
        cases h
    · rw [step_compress_tooLarge hm hp (Nat.not_lt.1 hlen)] at h
      cases h
      exact .aborts (.inr hm) _
  | decompress d =>
    by_cases hlen : d.length < 16
    · rw [step_decompress_short hm hp hlen] at h
      cases h
      exact .aborts (.inr hm) _
    · rw [Nat.not_lt] at hlen
      by_cases hmagic : d.take 8 = magic
      · obtain ⟨o, p, ho, hps, hstep⟩ := step_decompress hm hp hlen hmagic
        rw [hstep] at h
        cases h
        exact .beginsDecompress hm d o p hlen hmagic ho hps
      · rw [step_decompress_badMagic hm hp hlen hmagic] at h
        cases h
        exact .aborts (.inr hm) _

theorem stepsTo_of_step {s t : State} (h : step s = .next t) : StepsTo s t := by
  obtain ⟨hp, hm, rfl⟩ | ⟨cmd, hp, hm, -⟩ | ⟨hp, hm, hc⟩ | ⟨hp, hm, hd⟩ := step_cases h
  · exact .waits hp hm
  · exact stepsTo_of_accept hm hp h
  · by_cases hpos : s.pos < s.inp.length
    · rw [compressStep, if_pos hpos] at hc
      exact .decides hp hm hpos hc
    · rw [compressStep, if_neg hpos] at hc
      obtain ⟨-, g⟩ | ⟨-, g⟩ := finishCompress_cases s <;> rw [g] at hc <;> cases hc
      · rw [aborted_eq_ended hp]
        exact .aborts (.inl hp) _
      · rw [completed_eq_ended hp]
        exact .completes hp _
  · obtain ⟨-, g⟩ | ⟨e, -, g⟩ | ⟨-, g⟩ | ⟨i, hi, g⟩ := decodeStep_cases s <;> rw [g] at hd
    · cases hd
      rw [completed_eq_ended hp]
      exact .completes hp _
    · cases hd
      rw [aborted_eq_ended hp]
      exact .aborts (.inl hp) _
    · cases hd
    · exact .takes hp hm i hi hd

/-! ### The parameters and the record -/

/-- Settles O51: nothing a step can do writes a parameter, and only the end of a command writes the record. -/
theorem parametersAndRecordStand : Obligations.ParametersAndRecordStand := by
  intro s t h
  cases stepsTo_of_step h with
  | waits | beginsCompress | beginsDecompress => exact ⟨rfl, fun _ => rfl⟩
  | decides hp hm hpos hc =>
    obtain ⟨i, bs, rfl⟩ := engineStep_next hc
    simp [afterDecision, State.record]
  | takes hp hm i hi hd =>
    obtain ⟨m, -, rfl⟩ | ⟨e, rfl⟩ := exec_next hd
    · exact ⟨rfl, fun _ => rfl⟩
    · exact ⟨rfl, fun ht => absurd rfl ht⟩
  | completes | aborts => exact ⟨rfl, fun ht => absurd rfl ht⟩

/-- Settles O53: a step of a running command either leaves it running or answers the ended state. -/
theorem commandEndDiscards : Obligations.CommandEndDiscards := by
  intro s t h hs ht
  cases stepsTo_of_step h with
  | waits _ hm | beginsCompress hm | beginsDecompress hm => exact absurd hm hs
  | decides hp hm hpos hc =>
    obtain ⟨i, bs, rfl⟩ := engineStep_next hc
    simp [afterDecision, hm] at ht
  | takes hp hm i hi hd =>
    obtain ⟨m, -, rfl⟩ | ⟨e, rfl⟩ := exec_next hd
    · exact absurd (hm.symm.trans ht) nofun
    · exact ⟨.err e, [], nofun, rfl⟩
  | completes hp r => exact ⟨.ok, r, nofun, by rw [hp]; rfl⟩
  | aborts hp e => exact ⟨.err e, [], nofun, by rw [hp.resolve_right hs]; rfl⟩

end Sys2Proof.Machine

/-! PROOFS. What the match engine reads (41_match_engine section 3) and the candidate index (sections 5 and 6). -/

namespace Sys2Proof.Machine

/-! ### Keys and matches -/

/-- The key of a position with three bytes left is those bytes as the digits of one number. -/
theorem key_eq {inp : Memory} {p : Nat} (hp : p + 3 ≤ inp.length) :
    key inp p = some (inp[p].toNat * 65536 + inp[p + 1].toNat * 256 + inp[p + 2].toNat) :=
  key_of_three (List.getElem?_eq_getElem _) (List.getElem?_eq_getElem _) (List.getElem?_eq_getElem _)

/-- Settles O34: equal numbers have equal digits. -/
theorem keyIsExact : Obligations.KeyIsExact := by
  intro inp p q hp hq
  rw [key_eq hp, key_eq hq, Option.some.injEq]
  constructor
  · intro h j hj
    obtain ⟨h0, h1, h2⟩ : inp[p].toNat = inp[q].toNat ∧ inp[p + 1].toNat = inp[q + 1].toNat ∧
        inp[p + 2].toNat = inp[q + 2].toNat := by
      have := byte_lt inp[p + 1]
      have := byte_lt inp[q + 1]
      have := byte_lt inp[p + 2]
      have := byte_lt inp[q + 2]
      omega
    rw [List.getElem?_eq_getElem (by omega), List.getElem?_eq_getElem (by omega), Option.some.injEq]
    apply BitVec.eq_of_toNat_eq
    obtain rfl | rfl | rfl : j = 0 ∨ j = 1 ∨ j = 2 := by omega
    · exact h0
    · exact h1
    · exact h2
  · intro h
    have hbyte : ∀ j, (hj : j < 3) → inp[p + j] = inp[q + j] := by
      intro j hj
      have := h j hj
      rwa [List.getElem?_eq_getElem (by omega), List.getElem?_eq_getElem (by omega), Option.some.injEq] at this
    rw [show inp[p] = inp[q] from hbyte 0 (by decide), hbyte 1 (by decide), hbyte 2 (by decide)]

/-- Settles O35: the match length's own characterisation, and the two values of the cap. -/
theorem matchLenIsLongestMatch : Obligations.MatchLenIsLongestMatch := by
  intro ov inp q e he hq
  obtain ⟨hcap, hbytes, hmax⟩ := matchLen_spec ov inp q e he
  refine ⟨hcap, hbytes, hmax, fun hov => ?_, ?_, ?_⟩
  · obtain ⟨-, -, hback⟩ := matchCap_le ov inp q e
    have := hback hov
    omega
  · rintro rfl
    rfl
  · rintro rfl
    rfl

/-! ### The index -/

/-- Settles O41: insertion at the front and the cap for the position's own key, eviction for every key. -/
theorem appendUpdatesIndex : Obligations.AppendUpdatesIndex := by
  intro k inp p w x hx
  refine ⟨wf_indexAppend hx, fun hk => ?_, fun hk => ?_⟩
  · rw [lookup_indexAppend hx, if_pos hk, window]
  · rw [lookup_indexAppend hx, if_neg hk, window]

/-- Settles O44: the lists of the index hold only positions in the window, so the search keeps the nearest of them. -/
theorem candidatesFromInput : Obligations.CandidatesFromInput := by
  rintro s q w ⟨-, hdepth⟩ hexact hkey
  have hwin : ((positions s.inp w q).take s.cfg.maxCandidates).filter (fun e => decide (q - e ≤ window)) =
      (positions s.inp w q).take s.cfg.maxCandidates := by
    refine List.filter_eq_self.2 fun e he => ?_
    have hpos := (List.mem_filter.1 (List.mem_of_mem_take he)).2
    rw [Bool.and_eq_true] at hpos
    exact hpos.2
  have hcand : candidates s q = inWindow s.cfg.searchDepth q (Index.lookup w s.idx) := by rw [candidates, hkey]
  rw [hcand, hexact w, inWindow, hwin, List.take_take, Nat.min_eq_left hdepth]

/-- All the positions an index holds, list after list. -/
def Index.held (x : Index) : List Nat := x.flatMap Prod.snd

theorem length_held (x : Index) : (Index.held x).length = Index.total x := List.length_flatMap

/-- No position stands twice in an index that meets its invariant: in one list the positions fall, and two lists have
different keys, of which a position has one. -/
theorem nodup_held {k : Config} {inp : Memory} {n : Nat} {x : Index} (h : IndexInv k inp n x) :
    (Index.held x).Nodup := by
  obtain ⟨hwf, hlists⟩ := h
  refine List.nodup_flatMap.2 ⟨fun e he => ?_, ?_⟩
  · obtain ⟨-, hfall, -⟩ := hlists e he
    exact hfall.imp fun hab => by omega
  · have hkeys : x.Pairwise fun a b => a.1 < b.1 := by
      rw [Index.wf, Bool.and_eq_true, decide_eq_true_eq] at hwf
      exact List.pairwise_map.1 hwf.1
    refine hkeys.imp_of_mem fun {a b} ha hb hab => ?_
    rw [Function.onFun, List.disjoint_left]
    intro p hpa hpb
    obtain ⟨-, -, hka⟩ := (hlists a ha).2.2 p hpa
    obtain ⟨-, -, hkb⟩ := (hlists b hb).2.2 p hpb
    rw [hka, Option.some.injEq] at hkb
    omega

/-- An index that meets its invariant holds at most one position for each place of the window. -/
theorem total_le_window {k : Config} {inp : Memory} {n : Nat} {x : Index} (h : IndexInv k inp n x) :
    Index.total x ≤ 2048 := by
  have hsub : Index.held x ⊆ List.range' (n - 2048) 2048 := by
    intro p hp
    obtain ⟨e, he, hpe⟩ := List.mem_flatMap.1 hp
    obtain ⟨-, -, hmem⟩ := h.2 e he
    obtain ⟨hlt, hwin, -⟩ := hmem p hpe
    rw [window] at hwin
    exact List.mem_range'_1.2 (by omega)
  calc Index.total x
    _ = (Index.held x).length := (length_held x).symm
    _ ≤ (List.range' (n - 2048) 2048).length := ((nodup_held h).subperm hsub).length_le
    _ = 2048 := List.length_range'

/-! ### What one engine step keeps -/

theorem dict_length_of_compressInv {s : State} (hi : CompressInv s) : s.dict.length = s.pos := by
  obtain ⟨-, -, hpos, hdict, -⟩ := hi
  rw [hdict, List.length_take_of_le hpos]

/-- Whatever state an engine step answers from the invariant of a running COMPRESS is that after a decision in range,
which stands for the next bytes of the input. -/
theorem engineStep_decision {s t : State} (hi : CompressInv s) (hpos : s.pos < s.inp.length)
    (h : engineStep s = .next t) :
    ∃ (i : Instr) (n : Nat), i.wellFormed = true ∧ i ≠ .lit0 ∧ 1 ≤ n ∧ s.pos + n ≤ s.inp.length ∧
      expand i s.dict = some (s.dict ++ (s.inp.drop s.pos).take n) ∧
      t = afterDecision i ((s.inp.drop s.pos).take n) s := by
  obtain ⟨i, n, hwf, h0, hn, hin, hexp, hstep⟩ := engineStep_sound hi hpos
  rw [hstep] at h
  cases h
  exact ⟨i, n, hwf, h0, hn, hin, hexp, rfl⟩

/-- A step that leaves a COMPRESS running is an engine step. -/
theorem engineStep_of_step {s t : State} (hm : s.mode = .compressing) (h : step s = .next t)
    (ht : t.mode = .compressing) : s.pos < s.inp.length ∧ engineStep s = .next t := by
  cases stepsTo_of_step h with
  | waits _ hm' | beginsCompress hm' | beginsDecompress hm' | takes _ hm' => rw [hm] at hm'; cases hm'
  | decides _ _ hpos hc => exact ⟨hpos, hc⟩
  | completes | aborts => cases ht

/-- Settles O43: an engine step appends bytes one by one, and each append keeps the index the function of the input. -/
theorem stepKeepsIndexExact : Obligations.StepKeepsIndexExact := by
  intro s t hm hi hexact h ht
  obtain ⟨hpos, hc⟩ := engineStep_of_step hm h ht
  obtain ⟨i, n, -, -, -, hin, -, rfl⟩ := engineStep_decision hi hpos hc
  have hdict := dict_length_of_compressInv hi
  obtain ⟨-, -, -, -, hwf, -⟩ := hi
  have hidx := indexExact_appendAll ((s.inp.drop s.pos).take n) hdict hwf hexact
  simpa only [afterDecision, appendDictAll_cfg, appendDictAll_inp] using hidx

/-- A stream of tokens and one more expand a sequence as the stream does and then the token. -/
theorem expandAll_concat {toks : List Instr} {i : Instr} {m m' m'' : Memory} (h : expandAll toks m = some m')
    (hi : expand i m' = some m'') : expandAll (toks ++ [i]) m = some m'' := by
  induction toks generalizing m with
  | nil =>
    cases h
    rw [List.nil_append, expandAll, hi]
    rfl
  | cons j js ih =>
    rw [expandAll] at h
    rw [List.cons_append, expandAll]
    cases hj : expand j m with
    | none => rw [hj] at h; cases h
    | some m1 => rw [hj] at h; exact ih h

/-- A decision keeps TOK a stream that stands for the dictionary. -/
theorem tokReplays_afterDecision {s : State} {i : Instr} {bs : List Byte} (h : TokReplays s)
    (hwf : i.wellFormed = true) (h0 : i ≠ .lit0) (hexp : expand i s.dict = some (s.dict ++ bs)) :
    TokReplays (afterDecision i bs s) := by
  obtain ⟨toks, htoks, htok, hall⟩ := h
  refine ⟨toks ++ [i], fun j hj => ?_, ?_, ?_⟩
  · obtain hj | hj := List.mem_append.1 hj
    · exact htoks j hj
    · rw [List.mem_singleton.1 hj]
      exact ⟨hwf, h0⟩
  · simp only [afterDecision, htok, List.flatMap_append, List.flatMap_singleton]
  · simp only [afterDecision, appendDictAll_dict]
    exact expandAll_concat hall hexp

/-- Settles O54: the decision's token is appended to the stream as its bytes are appended to the dictionary. -/
theorem stepKeepsTokReplays : Obligations.StepKeepsTokReplays := by
  intro s t hm hi htok h ht
  obtain ⟨hpos, hc⟩ := engineStep_of_step hm h ht
  obtain ⟨i, n, hwf, h0, -, -, hexp, rfl⟩ := engineStep_decision hi hpos hc
  exact tokReplays_afterDecision htok hwf h0 hexp

/-- A literal's bytes are read off its encoding. -/
theorem encode_lit_inj {d d' : List Byte} (h : encode (.lit d) = encode (.lit d')) : d = d' := (List.cons.inj h).2

/-- Settles O45: the literal is known by its bytes, and a growth that stops short of the limit and of the input's end
stops where the position after it qualifies. -/
theorem shortLiteralThenMatch : Obligations.ShortLiteralThenMatch := by
  intro s t n d hp hm hpos hnorle hnoref hstep htok hn hshort hmore
  obtain ⟨n', -, -, hin, -, hstop, hlit⟩ := engineEmitsLit s hp hm hpos hnorle hnoref
  have hlen : ((s.inp.drop s.pos).take n').length = n' := by
    rw [List.length_take, List.length_drop]
    omega
  rw [hlit] at hstep
  cases hstep
  obtain rfl := encode_lit_inj (List.append_cancel_left htok)
  obtain rfl : n = n' := hn.trans hlen
  refine ⟨rfl, ?_⟩
  obtain h63 | hend | hq := hstop
  · omega
  · simp only [appendDictAll_inp] at hmore
    omega
  · exact (qualifies_congr rfl rfl rfl _).trans hq

end Sys2Proof.Machine

/-! PROOFS. The machine's invariant: it holds after power-on, every step keeps it, and from it a step faults only
where a buffer is full (10_state, 20_memory section 9, 41_match_engine section 6). -/

namespace Sys2Proof.Machine

/-! ### The invariant at rest and at the start of a command -/

/-- Settles O47: the power-on state has no record and holds nothing. -/
theorem resetMeetsInv : Obligations.ResetMeetsInv := fun _ => ⟨rfl, fun _ => rfl, nofun, nofun⟩

/-- The end of a command with a legal record meets the invariant. -/
theorem machineInv_ended {st : Status} {r : List Byte} (h : legalRecord (st, r) = true) (s : State) :
    MachineInv (ended st r s) := ⟨h, fun _ => rfl, nofun, nofun⟩

/-- A COMPRESS begins with an empty dictionary and an empty index. -/
theorem compressInv_start {s : State} {d : List Byte} (hlen : d.length < 2 ^ 32)
    (hroom : fits s.cfg.inCapacity d.length = true) : CompressInv (compressStart d s) :=
  ⟨hlen, hroom, Nat.zero_le _, rfl, rfl, nofun⟩

theorem fits_zero (k : Option Nat) : fits k 0 = true := by
  cases k with
  | none => rfl
  | some n => exact decide_eq_true (Nat.zero_le n)

/-- A DECOMPRESS begins with the header read and an empty output. -/
theorem decompressInv_start {s : State} {d : List Byte} {o p : U32} (hlen : 16 ≤ d.length) (hmagic : d.take 8 = magic)
    (ho : le32 d 8 = some o) (hp : le32 d 12 = some p) : DecompressInv (decompressStart d o p s) :=
  ⟨hlen, hmagic, ho, hp, rfl, Nat.le_refl _, headerSize_le_payloadEnd _ _ _ hlen, by
    change 0 < o.toNat + 16387
    omega, fits_zero _⟩

/-! ### The invariant of a running DECOMPRESS -/

theorem length_encode {i : Instr} (h : i.wellFormed = true) : (encode i).length = i.size := by
  obtain ⟨b0, tail, henc, -, hlen⟩ := encodeSize_statement i h
  rw [henc, List.length_cons, hlen]

/-- A token the decoder finds is in range, and its bytes lie before `end`. -/
theorem of_fetch_token {s : State} {i : Instr} (h : fetch s = .token i) :
    s.out.length < s.orig.toNat ∧ i.wellFormed = true ∧ s.rp + i.size ≤ s.endp := by
  obtain ⟨-, g⟩ | ⟨-, -, g⟩ | ⟨-, -, -, g⟩ | ⟨hout, hrp, hend, ⟨j, rest, hdec, g⟩ | ⟨e, -, g⟩⟩ := fetch_cases s <;>
    rw [g] at h <;> cases h
  obtain ⟨hwf, hbytes⟩ := encodeAfterDecode _ _ _ hdec
  have hlen := congrArg List.length hbytes
  rw [List.length_append, length_encode hwf, List.length_take, List.length_drop] at hlen
  exact ⟨hout, hwf, by omega⟩

/-- No token appends more bytes than the longest run. -/
theorem produced_le {i : Instr} (h : i.wellFormed = true) : produced i ≤ 16387 := by
  cases i with
  | lit0 => exact Nat.zero_le _
  | lit d => have := (wellFormed_lit d).1 h; exact this.2.trans (by decide)
  | rle n v => exact ((wellFormed_rle n v).1 h).2
  | ref l o => have := (wellFormed_ref l o).1 h; exact this.2.1.trans (by decide)

theorem fits_of_decompressInv {s : State} (hi : DecompressInv s) : fits s.cfg.outCapacity s.out.length = true := by
  obtain ⟨-, -, -, -, -, -, -, -, hroom⟩ := hi
  exact hroom

/-- A token within the invariant's bounds whose expansion fits OUT keeps the invariant of a running DECOMPRESS. -/
theorem decompressInv_taken {s : State} {i : Instr} {m : Memory} (hi : DecompressInv s) (hf : fetch s = .token i)
    (hm : expand i s.out = some m) (hroom : fits s.cfg.outCapacity m.length = true) :
    DecompressInv { s with out := m, rp := s.rp + i.size } := by
  obtain ⟨hlen, hmagic, ho, hp, hendp, hrp, -, -, -⟩ := hi
  obtain ⟨hout, hwf, hsize⟩ := of_fetch_token hf
  obtain ⟨ext, rfl, hext⟩ := expand_append hm
  have hprod := produced_le hwf
  refine ⟨hlen, hmagic, ho, hp, hendp, Nat.le_add_right_of_le hrp, hsize, ?_, hroom⟩
  rw [List.length_append, hext]
  change s.out.length + produced i < s.orig.toNat + 16387
  omega

/-- Everything a token the decoder finds can do, from the invariant of a running DECOMPRESS: one of its two errors, its
effect, or nothing where OUT has no room. -/
theorem exec_fetched {s : State} {i : Instr} (hi : DecompressInv s) (hf : fetch s = .token i) :
    exec i s = .next (aborted .truncated s) ∨ exec i s = .next (aborted .invalidOffset s) ∨
    (∃ m, expand i s.out = some m ∧ fits s.cfg.outCapacity m.length = false ∧ exec i s = .fault .capacityExceeded) ∨
    (∃ m, expand i s.out = some m ∧ DecompressInv { s with out := m, rp := s.rp + i.size } ∧
      exec i s = .next { s with out := m, rp := s.rp + i.size }) := by
  obtain ⟨-, hwf, -⟩ := of_fetch_token hf
  obtain ⟨rfl, g⟩ | ⟨-, -, g⟩ | ⟨-, -, -, -, -, g⟩ | ⟨l, o, rfl, ho, hnone, -⟩ | ⟨-, -, m, hm, g⟩ := exec_cases i s
  · exact .inr (.inr (.inr ⟨s.out, rfl, decompressInv_taken hi hf rfl (fits_of_decompressInv hi), g⟩))
  · exact .inl g
  · exact .inr (.inl g)
  · obtain ⟨-, -, h1, -⟩ := (wellFormed_ref l o).1 hwf
    obtain ⟨m, hm⟩ := expand_isSome (i := .ref l o) (m := s.out) (by rintro _ _ ⟨⟩; exact ⟨h1, ho⟩)
    rw [hnone] at hm
    cases hm
  · refine .inr (.inr ?_)
    cases hroom : fits s.cfg.outCapacity m.length with
    | false => exact .inl ⟨m, hm, hroom, g.trans (putOut_of_not_fits hroom)⟩
    | true => exact .inr ⟨m, hm, decompressInv_taken hi hf hm hroom, g.trans (putOut_of_fits hroom)⟩

/-! ### Every step -/

/-- Settles O48: each thing a step can do keeps the invariant of the mode it leaves the machine in. -/
theorem stepKeepsInv : Obligations.StepKeepsInv := by
  rintro s t ⟨hrec, hidle, hcomp, hdecomp⟩ h
  cases stepsTo_of_step h with
  | waits => exact ⟨hrec, hidle, hcomp, hdecomp⟩
  | beginsCompress _ d hlen hroom => exact ⟨hrec, nofun, fun _ => compressInv_start hlen hroom, nofun⟩
  | beginsDecompress hm d o p hlen hmagic ho hps =>
    have hidx : s.idx = [] := congrArg State.idx (hidle hm).symm
    exact ⟨hrec, nofun, nofun, fun _ => ⟨decompressInv_start hlen hmagic ho hps, hidx⟩⟩
  | decides hp hm hpos hc =>
    obtain ⟨i, n, -, -, -, hin, -, rfl⟩ := engineStep_decision (hcomp hm) hpos hc
    have hmode : (afterDecision i ((s.inp.drop s.pos).take n) s).mode = .compressing := by simp [afterDecision, hm]
    refine ⟨?_, fun h => ?_, fun _ => compressInv_afterDecision (hcomp hm) hin, fun h => ?_⟩
    · simpa [afterDecision, State.record] using hrec
    · rw [hmode] at h
      cases h
    · rw [hmode] at h
      cases h
  | takes hp hm i hf hd =>
    obtain ⟨hi, hidx⟩ := hdecomp hm
    obtain g | g | ⟨m, -, -, g⟩ | ⟨m, -, hinv, g⟩ := exec_fetched hi hf <;> rw [g] at hd <;> cases hd
    · rw [aborted_eq_ended hp]
      exact machineInv_ended rfl s
    · rw [aborted_eq_ended hp]
      exact machineInv_ended rfl s
    · exact ⟨hrec, fun h => absurd (hm.symm.trans h) nofun, fun h => absurd (hm.symm.trans h) nofun,
        fun _ => ⟨hinv, hidx⟩⟩
  | completes _ r => exact machineInv_ended rfl s
  | aborts _ e => exact machineInv_ended rfl s

/-- From the invariant the decoder never finds the payload bound past the container. -/
theorem fetch_ne_broken {s : State} (hi : DecompressInv s) : fetch s ≠ .broken := by
  obtain ⟨-, -, -, -, hendp, -, -, -, -⟩ := hi
  have hle := payloadEnd_le s.cfg s.c.length s.psize
  intro h
  obtain ⟨-, g⟩ | ⟨-, -, g⟩ | ⟨-, -, hout, -⟩ | ⟨-, -, -, ⟨i, rest, -, g⟩ | ⟨e, -, g⟩⟩ := fetch_cases s
  · rw [g] at h; cases h
  · rw [g] at h; cases h
  · omega
  · rw [g] at h; cases h
  · rw [g] at h; cases h

/-- An accepting step faults only where IN has no room. -/
theorem step_accept_fault {s : State} {cmd : Command} {f : Fault} (hm : s.mode = .idle) (hp : s.port = some cmd)
    (h : step s = .fault f) : f = .capacityExceeded := by
  rw [step_accept hp hm] at h
  cases cmd with
  | compress d =>
    obtain ⟨-, g⟩ | ⟨-, -, g⟩ | ⟨-, -, g⟩ := startCompress_cases d { s with port := none } <;>
      rw [accept, g] at h <;> cases h
    rfl
  | decompress d =>
    obtain ⟨-, g⟩ | ⟨-, -, g⟩ | ⟨-, -, o, p, -, -, g⟩ := startDecompress_cases d { s with port := none } <;>
      rw [accept, g] at h <;> cases h

/-- Settles O49: from the invariant the engine always has a decision, and a token that is found reads only bytes that
exist. -/
theorem stepFaultsOnlyOnCapacity : Obligations.StepFaultsOnlyOnCapacity := by
  rintro s f ⟨-, -, hcomp, hdecomp⟩ h
  by_cases hm : s.mode = .idle
  · cases hp : s.port with
    | none => rw [step_idle hp hm] at h; cases h
    | some cmd => exact step_accept_fault hm hp h
  cases hp : s.port with
  | some cmd => rw [waitsAndRefuses.2 s cmd hp hm] at h; cases h
  | none =>
    cases hmode : s.mode with
    | idle => exact absurd hmode hm
    | compressing =>
      rw [step_compressing hp hmode, compressStep] at h
      split at h
      · next hpos =>
        obtain ⟨i, n, -, -, -, -, -, g⟩ := engineStep_sound (hcomp hmode) hpos
        rw [g] at h
        cases h
      · obtain ⟨-, g⟩ | ⟨-, g⟩ := finishCompress_cases s <;> rw [g] at h <;> cases h
    | decompressing =>
      obtain ⟨hi, -⟩ := hdecomp hmode
      rw [step_decompressing hp hmode] at h
      obtain ⟨-, g⟩ | ⟨e, -, g⟩ | ⟨hf, -⟩ | ⟨i, hf, g⟩ := decodeStep_cases s
      · rw [g] at h; cases h
      · rw [g] at h; cases h
      · exact absurd hf (fetch_ne_broken hi)
      · rw [g] at h
        obtain g | g | ⟨m, -, -, g⟩ | ⟨m, -, -, g⟩ := exec_fetched hi hf <;> rw [g] at h <;> cases h
        rfl

/-- Settles O42: the index's invariant bounds it in a running COMPRESS, and in the other modes there is none. -/
theorem indexIsBounded : Obligations.IndexIsBounded := by
  refine ⟨fun k inp n x => total_le_window, fun s t hi h => ?_⟩
  obtain ⟨-, hidle, hcomp, hdecomp⟩ := stepKeepsInv s t hi h
  have hempty : t.idx = [] → Index.total t.idx ≤ 2048 := fun h => by rw [h]; decide
  cases hm : t.mode with
  | idle => exact hempty (congrArg State.idx (hidle hm).symm)
  | compressing =>
    obtain ⟨-, -, -, -, hidx⟩ := hcomp hm
    exact total_le_window hidx
  | decompressing => exact hempty (hdecomp hm).2

end Sys2Proof.Machine

/-! PROOFS. Whole runs of COMPRESS: that it ends (41_match_engine section 6), the empty input, the header and the size
of a container (42_stream_assembler sections 2 and 4). -/

namespace Sys2Proof.Machine

/-! ### Where a run ends -/

/-- A step that answers an ended state is the last one that changes anything. -/
theorem endsIn_of_step_ended {s u : State} {st : Status} {r : List Byte} (h : step s = .next (ended st r u)) :
    EndsIn s (ended st r u) := (endsIn_step h).2 (endsIn_refl rfl rfl)

/-- A run in which a command is presented has a first step, after which it ends where it does. -/
theorem exists_step_of_endsIn {s t : State} {cmd : Command} (h : EndsIn s t) (hp : s.port = some cmd) :
    ∃ u, step s = .next u ∧ EndsIn u t := by
  obtain ⟨k, hrun, hm, hp'⟩ := h
  cases k with
  | zero =>
    cases hrun
    rw [hp] at hp'
    cases hp'
  | succ k =>
    rw [run_succ, onNext_eq_next] at hrun
    obtain ⟨u, hstep, hrun⟩ := hrun
    exact ⟨u, hstep, k, hrun, hm, hp'⟩

/-- A command that ends in an ended state returns its record. -/
theorem returns_of_endsIn {cmd : Command} {s u : State} {st : Status} {r : List Byte}
    (h : EndsIn { s with port := some cmd } (ended st r u)) : Returns cmd s st r :=
  (returns_iff cmd s st r).2 ⟨_, h, ended_record st r u⟩

/-- What a command returns is the record of the state it ends in. -/
theorem record_of_returns {cmd : Command} {s t : State} {st : Status} {r : List Byte} (h : Returns cmd s st r)
    (ht : EndsIn { s with port := some cmd } t) : t.record = (st, r) := by
  obtain ⟨u, hu, hrec⟩ := (returns_iff cmd s st r).1 h
  rwa [endsIn_unique ht hu]

/-! ### The run of a COMPRESS -/

/-- The machine in `s` runs a COMPRESS of `d`. -/
structure Compressing (d : List Byte) (s : State) : Prop where
  port : s.port = none
  mode : s.mode = .compressing
  inp : s.inp = d
  inv : CompressInv s

theorem compressing_start {s : State} {d : List Byte} (hlen : d.length < 2 ^ 32)
    (hroom : fits s.cfg.inCapacity d.length = true) : Compressing d (compressStart d s) :=
  ⟨rfl, rfl, rfl, compressInv_start hlen hroom⟩

theorem compressing_afterDecision {s : State} {d : List Byte} {i : Instr} {n : Nat} (h : Compressing d s)
    (hin : s.pos + n ≤ s.inp.length) : Compressing d (afterDecision i ((s.inp.drop s.pos).take n) s) := by
  refine ⟨?_, ?_, ?_, compressInv_afterDecision h.inv hin⟩
  · simpa [afterDecision] using h.port
  · simpa [afterDecision] using h.mode
  · simpa [afterDecision] using h.inp

/-- The predicate `P` of the states of a COMPRESS of `d` is kept by the engine's decisions. -/
def KeptByEngine (d : List Byte) (P : State → Prop) : Prop :=
  ∀ u t, Compressing d u → u.pos < u.inp.length → engineStep u = .next t → P u → P t

theorem keptByEngine_true (d : List Byte) : KeptByEngine d fun _ => True := fun _ _ _ _ _ _ => trivial

/-- The induction over a COMPRESS: every decision takes `pos` nearer to the input's end, so the run reaches it, and what
the decisions keep holds there. -/
theorem compress_reaches_end {d : List Byte} {P : State → Prop} (hP : KeptByEngine d P) :
    ∀ (k : Nat) (s : State), d.length - s.pos = k → Compressing d s → P s →
      ∃ u, Compressing d u ∧ P u ∧ u.pos = d.length ∧ ∀ t, EndsIn u t → EndsIn s t := by
  intro k
  induction k using Nat.strongRecOn with
  | ind k ih =>
    intro s hk hs hPs
    by_cases hpos : s.pos < s.inp.length
    · obtain ⟨i, n, -, -, hn, hin, -, hstep⟩ := engineStep_sound hs.inv hpos
      have hlen : ((s.inp.drop s.pos).take n).length = n := by
        rw [List.length_take, List.length_drop]
        omega
      have hpos' : (afterDecision i ((s.inp.drop s.pos).take n) s).pos = s.pos + n := by rw [afterDecision, hlen]
      rw [hs.inp] at hpos hin
      obtain ⟨u, hu, hPu, hend, hruns⟩ := ih _ (by omega) (afterDecision i ((s.inp.drop s.pos).take n) s) rfl
        (compressing_afterDecision hs (hs.inp ▸ hin)) (hP s _ hs (hs.inp ▸ hpos) hstep hPs)
      refine ⟨u, hu, hPu, hend, fun t ht => (endsIn_step ?_).2 (hruns t ht)⟩
      rw [step_at_byte hs.port hs.mode (hs.inp ▸ hpos), hstep]
    · obtain ⟨-, -, hle, -⟩ := hs.inv
      rw [hs.inp] at hpos hle
      exact ⟨s, hs, hPs, by omega, fun t ht => ht⟩

/-- A COMPRESS that has used up its input ends with TooLarge, or with OK and the container of TOK. -/
theorem compressing_ends {d : List Byte} {u : State} (hu : Compressing d u) (hend : u.pos = d.length) :
    EndsIn u (ended (.err .tooLarge) [] u) ∨
    ((padded u.tok).length < 2 ^ 32 ∧ EndsIn u (ended .ok (container d.length u.tok) u)) := by
  have hfinish : step u = finishCompress u := by
    rw [step_compressing hu.port hu.mode, compressStep, if_neg (by rw [hu.inp]; omega)]
  obtain ⟨-, g⟩ | ⟨hsmall, g⟩ := finishCompress_cases u
  · exact .inl (endsIn_of_step_ended (by rw [hfinish, g, aborted_eq_ended hu.port]))
  · exact .inr ⟨hsmall, endsIn_of_step_ended (by rw [hfinish, g, completed_eq_ended hu.port, hu.inp])⟩

/-- A COMPRESS presented to an idle machine that accepts it runs to the end of the input, where what the decisions keep
still holds. -/
theorem compress_run {s : State} {d : List Byte} {P : State → Prop} (hm : s.mode = .idle) (hlen : d.length < 2 ^ 32)
    (hroom : fits s.cfg.inCapacity d.length = true) (hP : KeptByEngine d P) (h0 : P (compressStart d s)) :
    ∃ u, Compressing d u ∧ P u ∧ u.pos = d.length ∧
      ∀ t, EndsIn u t → EndsIn { s with port := some (.compress d) } t := by
  obtain ⟨u, hu, hPu, hend, hruns⟩ := compress_reaches_end hP _ _ rfl (compressing_start hlen hroom) h0
  have hstep : step { s with port := some (.compress d) } = .next (compressStart d s) :=
    step_compress (s := { s with port := some (.compress d) }) hm rfl hlen hroom
  exact ⟨u, hu, hPu, hend, fun t ht => (endsIn_step hstep).2 (hruns t ht)⟩

/-- Settles O55: an input too long for a header is TooLarge at once; any other runs to its end, and the padded stream's
length decides. -/
theorem compressEnds : Obligations.CompressEnds := by
  intro s d hm hroom
  by_cases hlen : d.length < 2 ^ 32
  · obtain ⟨u, hu, -, hend, hruns⟩ := compress_run hm hlen hroom (keptByEngine_true d) trivial
    obtain hbig | ⟨-, hok⟩ := compressing_ends hu hend
    · exact .inr (returns_of_endsIn (hruns _ hbig))
    · exact .inl ⟨_, returns_of_endsIn (hruns _ hok)⟩
  · exact .inr (returns_of_endsIn (endsIn_of_step_ended
      (step_compress_tooLarge (s := { s with port := some (.compress d) }) hm rfl (Nat.not_lt.1 hlen))))

/-- A COMPRESS that returns OK was accepted: the header can record its input's length and IN holds it. -/
theorem accepted_of_returns_ok {s : State} {d r : List Byte} (hm : s.mode = .idle)
    (h : Returns (.compress d) s .ok r) : d.length < 2 ^ 32 ∧ fits s.cfg.inCapacity d.length = true := by
  have hlen : d.length < 2 ^ 32 := by
    by_contra hbig
    have hrec := record_of_returns h (endsIn_of_step_ended
      (step_compress_tooLarge (s := { s with port := some (.compress d) }) hm rfl (Nat.not_lt.1 hbig)))
    cases hrec
  refine ⟨hlen, ?_⟩
  by_contra hroom
  obtain ⟨t, ht, -⟩ := (returns_iff _ _ _ _).1 h
  obtain ⟨u, hstep, -⟩ := exists_step_of_endsIn ht rfl
  rw [step_compress_stuck (s := { s with port := some (.compress d) }) hm rfl hlen (Bool.eq_false_iff.2 hroom)] at hstep
  cases hstep

/-- What a COMPRESS returns with OK is the container of the TOK it ends with, where what the decisions keep holds. -/
theorem container_of_returns_ok {s : State} {d r : List Byte} {P : State → Prop} (hm : s.mode = .idle)
    (h : Returns (.compress d) s .ok r) (hP : KeptByEngine d P) (h0 : P (compressStart d s)) :
    ∃ u, Compressing d u ∧ P u ∧ u.pos = d.length ∧ (padded u.tok).length < 2 ^ 32 ∧ r = container d.length u.tok := by
  obtain ⟨hlen, hroom⟩ := accepted_of_returns_ok hm h
  obtain ⟨u, hu, hPu, hend, hruns⟩ := compress_run hm hlen hroom hP h0
  obtain hbig | ⟨hsmall, hok⟩ := compressing_ends hu hend
  · cases record_of_returns h (hruns _ hbig)
  · cases record_of_returns h (hruns _ hok)
    exact ⟨u, hu, hPu, hend, hsmall, rfl⟩

/-- Settles O30: the empty input has no byte to decide on, and its container is the header alone. -/
theorem emptyInput : Obligations.EmptyInput := by
  intro s hm
  have hbegin : step { s with port := some (.compress []) } = .next (compressStart [] s) :=
    step_compress (s := { s with port := some (.compress []) }) hm rfl (by decide) (fits_zero _)
  have hfinish : step (compressStart [] s) = .next (ended .ok (container 0 []) s) :=
    step_compressing_completes rfl rfl (Nat.le_refl 0) (show (padded []).length < 2 ^ 32 by decide)
  exact returns_of_endsIn ((endsIn_step hbegin).2 (endsIn_of_step_ended hfinish))

/-! ### The container -/

theorem length_container (n : Nat) (tok : Memory) :
    (container n tok).length = 16 + tok.length + padCount tok.length := by
  rw [container, List.length_append, header_length, padded_length, Nat.add_assoc]

/-- Settles O29: the container is a header and the padded stream, whose length is a multiple of 16. -/
theorem containerHeader : Obligations.ContainerHeader := by
  intro s d r hm h
  obtain ⟨hlen, -⟩ := accepted_of_returns_ok hm h
  obtain ⟨u, -, -, -, hsmall, rfl⟩ := container_of_returns_ok hm h (keptByEngine_true d) trivial
  obtain ⟨-, hmul⟩ := padCount_spec u.tok.length
  have hpayload : (container d.length u.tok).length - 16 = (padded u.tok).length := by
    rw [length_container, padded_length]
    omega
  refine ⟨?_, take_header _ _ _, le32_header_orig _ _ _, hlen, ?_, ?_, ?_⟩
  · rw [length_container]
    omega
  · rw [hpayload, padded_length]
    exact hmul
  · rw [hpayload]
    exact le32_header_psize _ _ _
  · rw [hpayload]
    exact hsmall

/-! ### The size of the token stream -/

/-- The stream is within one byte in 63 of the input read so far; or it is one byte over, the last token being a short
literal, and then the next position qualifies. -/
def StreamBounded (s : State) : Prop :=
  s.tok.length ≤ s.pos + s.pos / 63 ∨
  (s.tok.length ≤ s.pos + s.pos / 63 + 1 ∧ (s.pos < s.inp.length → qualifies s s.pos = true))

/-- A run or a reference is shorter than what it stands for, so it makes up for a short literal before it. -/
theorem streamBounded_of_shorter {s t : State} (h : StreamBounded s) (hpos : s.pos ≤ t.pos)
    (hshort : t.tok.length + s.pos + 1 ≤ s.tok.length + t.pos) : StreamBounded t := by
  left
  obtain h | ⟨h, -⟩ := h <;> omega

theorem length_append_encode {i : Instr} (h : i.wellFormed = true) (tok : Memory) :
    (tok ++ encode i).length = tok.length + i.size := by rw [List.length_append, length_encode h]

/-- A position that qualifies gets no literal. -/
theorem not_qualifies_of_lit {s : State} (h1 : ¬(4 ≤ rleLen s.inp s.pos ∧ (bestRef s s.pos).1 ≤ rleLen s.inp s.pos))
    (h2 : (bestRef s s.pos).1 < 3) : qualifies s s.pos ≠ true := by
  rw [Ne, qualifies_eq_true_iff]
  omega

/-- Each of the three decisions keeps the bound: a literal follows no short literal, so it starts from the tight one. -/
theorem streamBounded_kept (d : List Byte) : KeptByEngine d StreamBounded := by
  intro s t hs hpos h hb
  rw [← step_at_byte hs.port hs.mode hpos] at h
  by_cases hrle : 4 ≤ rleLen s.inp s.pos ∧ (bestRef s s.pos).1 ≤ rleLen s.inp s.pos
  · obtain ⟨-, hcap, -⟩ := rleLen_spec s.inp s.pos hpos
    rw [engineEmitsRle s _ hs.port hs.mode (List.getElem?_eq_getElem hpos) hrle.1 hrle.2] at h
    cases h
    refine streamBounded_of_shorter hb (Nat.le_add_right _ _) ?_
    dsimp only
    rw [length_append_encode ((wellFormed_rle _ _).2 ⟨hrle.1, hcap⟩), Instr.size]
    omega
  by_cases href : 3 ≤ (bestRef s s.pos).1
  · obtain ⟨h18, h1, h2048, ext, -, -, hstep⟩ := engineEmitsRef s hs.port hs.mode hs.inv hpos hrle href
    rw [hstep] at h
    cases h
    refine streamBounded_of_shorter hb (Nat.le_add_right _ _) ?_
    dsimp only
    rw [length_append_encode ((wellFormed_ref _ _).2 ⟨href, h18, h1, h2048⟩), Instr.size]
    omega
  · rw [Nat.not_le] at href
    obtain ⟨n, h1, h63, hin, -, hstop, hstep⟩ := engineEmitsLit s hs.port hs.mode hpos hrle href
    have hlen : ((s.inp.drop s.pos).take n).length = n := by
      rw [List.length_take, List.length_drop]
      omega
    have htight : s.tok.length ≤ s.pos + s.pos / 63 := by
      obtain hb | ⟨-, hq⟩ := hb
      · exact hb
      · exact absurd (hq hpos) (not_qualifies_of_lit hrle href)
    rw [hstep] at h
    cases h
    have htok : (s.tok ++ encode (.lit ((s.inp.drop s.pos).take n))).length = s.tok.length + (1 + n) := by
      rw [length_append_encode ((wellFormed_lit _).2 (by omega)), Instr.size, hlen]
    obtain rfl | hend | hq := hstop
    · left
      dsimp only
      omega
    · refine .inr ⟨by dsimp only; omega, fun hmore => ?_⟩
      simp only [appendDictAll_inp] at hmore
      omega
    · exact .inr ⟨by dsimp only; omega, fun _ => (qualifies_congr rfl rfl rfl _).trans hq⟩

/-- Settles O59: the bound on the stream at the input's end, and the padding's. -/
theorem containerSizeBound : Obligations.ContainerSizeBound := by
  intro s d r hm h
  refine ⟨?_, ?_⟩
  · obtain ⟨u, -, hbound, hend, -, rfl⟩ :=
      container_of_returns_ok hm h (streamBounded_kept d) (.inl (Nat.zero_le _))
    obtain ⟨hpad, -⟩ := padCount_spec u.tok.length
    have htok : u.tok.length ≤ d.length + d.length / 63 + 1 := by
      rw [← hend]
      obtain hb | ⟨hb, -⟩ := hbound <;> omega
    rw [length_container]
    omega
  · rintro rfl
    obtain ⟨-, rfl⟩ := returns_unique h (emptyInput s hm)
    rfl

end Sys2Proof.Machine

/-! PROOFS. Whole runs of DECOMPRESS: that it ends (40_token_codec section 6), and that it turns what COMPRESS returned
back into the input (42_stream_assembler section 4). -/

namespace Sys2Proof.Machine

/-! ### The run of a DECOMPRESS ends -/

theorem size_pos (i : Instr) : 1 ≤ i.size := by cases i <;> simp [Instr.size]

/-- A run of the decoder that has ended with OK, or with one of the two errors a payload can raise. -/
def DecoderEnds (s : State) : Prop :=
  (∃ r u, EndsIn s (ended .ok r u)) ∨ (∃ u, EndsIn s (ended (.err .truncated) [] u)) ∨
  ∃ u, EndsIn s (ended (.err .invalidOffset) [] u)

theorem decoderEnds_of_step {s t : State} (h : step s = .next t) (ht : DecoderEnds t) : DecoderEnds s :=
  ht.imp (fun ⟨r, u, hu⟩ => ⟨r, u, (endsIn_step h).2 hu⟩)
    (Or.imp (fun ⟨u, hu⟩ => ⟨u, (endsIn_step h).2 hu⟩) fun ⟨u, hu⟩ => ⟨u, (endsIn_step h).2 hu⟩)

theorem decoderEnds_of_truncated {s : State} (hp : s.port = none) (h : step s = .next (aborted .truncated s)) :
    DecoderEnds s := .inr (.inl ⟨s, endsIn_of_step_ended (by rw [h, aborted_eq_ended hp])⟩)

theorem decoderEnds_of_invalidOffset {s : State} (hp : s.port = none)
    (h : step s = .next (aborted .invalidOffset s)) : DecoderEnds s :=
  .inr (.inr ⟨s, endsIn_of_step_ended (by rw [h, aborted_eq_ended hp])⟩)

/-- The only error the fetch finds is Truncated. -/
theorem fetch_raised {s : State} {e : ErrorKind} (h : fetch s = .raised e) : e = .truncated := by
  obtain ⟨-, g⟩ | ⟨-, -, g⟩ | ⟨-, -, -, g⟩ | ⟨-, -, -, ⟨i, rest, -, g⟩ | ⟨d, -, g⟩⟩ := fetch_cases s <;>
    rw [g] at h <;> cases h <;> rfl

/-- A found token's expansion is at most what a u32 size and one more token can ask. -/
theorem length_expand_le {s : State} {i : Instr} {m : Memory} (hf : fetch s = .token i)
    (hm : expand i s.out = some m) : m.length ≤ 2 ^ 32 + 16387 := by
  obtain ⟨hout, hwf, -⟩ := of_fetch_token hf
  obtain ⟨ext, rfl, hext⟩ := expand_append hm
  have hprod := produced_le hwf
  have horig := s.orig.isLt
  rw [List.length_append, hext]
  omega

/-- The induction over a DECOMPRESS: every token takes `rp` nearer to `end`. -/
theorem decompressing_ends (k : Nat) : ∀ s : State, s.endp - s.rp = k → s.port = none → s.mode = .decompressing →
    DecompressInv s → fits s.cfg.outCapacity (2 ^ 32 + 16387) = true → DecoderEnds s := by
  induction k using Nat.strongRecOn with
  | ind k ih =>
    intro s hk hp hm hi hroom
    have hstep := step_decompressing hp hm
    obtain ⟨-, g⟩ | ⟨e, hf, g⟩ | ⟨hf, -⟩ | ⟨i, hf, g⟩ := decodeStep_cases s
    · exact .inl ⟨_, s, endsIn_of_step_ended (by rw [hstep, g, completed_eq_ended hp])⟩
    · obtain rfl := fetch_raised hf
      exact decoderEnds_of_truncated hp (hstep.trans g)
    · exact absurd hf (fetch_ne_broken hi)
    · obtain ⟨-, -, hsize⟩ := of_fetch_token hf
      have hpos := size_pos i
      have hless : s.endp - (s.rp + i.size) < k := by omega
      obtain ht | ho | ⟨m, hexp, hfull, -⟩ | ⟨m, -, hinv, hnext⟩ := exec_fetched hi hf
      · exact decoderEnds_of_truncated hp (hstep.trans (g.trans ht))
      · exact decoderEnds_of_invalidOffset hp (hstep.trans (g.trans ho))
      · rw [fits_mono (length_expand_le hf hexp) hroom] at hfull
        cases hfull
      · exact decoderEnds_of_step (hstep.trans (g.trans hnext)) (ih _ hless _ rfl hp hm hinv hroom)

/-- Settles O56: the checks of the start end a DECOMPRESS, or the decoder's run does. -/
theorem decompressEnds : Obligations.DecompressEnds := by
  intro s d hm hroom
  by_cases hlen : d.length < 16
  · exact .inr (.inr (.inl (returns_of_endsIn (endsIn_of_step_ended
      (step_decompress_short (s := { s with port := some (.decompress d) }) hm rfl hlen)))))
  rw [Nat.not_lt] at hlen
  by_cases hmagic : d.take 8 = magic
  · obtain ⟨o, p, ho, hps, hstep⟩ :=
      step_decompress (s := { s with port := some (.decompress d) }) hm rfl hlen hmagic
    obtain ⟨r, u, h⟩ | ⟨u, h⟩ | ⟨u, h⟩ := decoderEnds_of_step hstep
      (decompressing_ends _ _ rfl rfl rfl (decompressInv_start hlen hmagic ho hps) hroom)
    · exact .inl ⟨r, returns_of_endsIn h⟩
    · exact .inr (.inr (.inl (returns_of_endsIn h)))
    · exact .inr (.inr (.inr (returns_of_endsIn h)))
  · exact .inr (.inl (returns_of_endsIn (endsIn_of_step_ended
      (step_decompress_badMagic (s := { s with port := some (.decompress d) }) hm rfl hlen hmagic))))

/-! ### The round trip -/

/-- A token in range that is not LIT0 appends at least one byte. -/
theorem produced_pos {i : Instr} (hwf : i.wellFormed = true) (h0 : i ≠ .lit0) : 1 ≤ produced i := by
  cases i with
  | lit0 => exact absurd rfl h0
  | lit d => exact ((wellFormed_lit d).1 hwf).1
  | rle n v => exact (show 1 ≤ 4 by decide).trans ((wellFormed_rle n v).1 hwf).1
  | ref l o => exact (show 1 ≤ 3 by decide).trans ((wellFormed_ref l o).1 hwf).1

/-- A stream of tokens only appends. -/
theorem length_le_of_expandAll {toks : List Instr} {m m' : Memory} (h : expandAll toks m = some m') :
    m.length ≤ m'.length := by
  induction toks generalizing m with
  | nil => cases h; exact Nat.le_refl _
  | cons i is ih =>
    rw [expandAll] at h
    cases hi : expand i m with
    | none => rw [hi] at h; cases h
    | some m1 =>
      rw [hi] at h
      obtain ⟨ext, rfl, -⟩ := expand_append hi
      have := ih h
      rw [List.length_append] at this
      omega

/-- A running DECOMPRESS whose payload from `rp` on begins with the encodings of tokens that expand OUT to `d`, which is
the output its header asks for. -/
structure Replaying (d : List Byte) (toks : List Instr) (s : State) : Prop where
  port : s.port = none
  mode : s.mode = .decompressing
  orig : s.orig.toNat = d.length
  endp : s.endp = s.c.length
  room : fits s.cfg.outCapacity d.length = true
  tokens : ∀ i ∈ toks, i.wellFormed = true ∧ i ≠ .lit0
  expands : expandAll toks s.out = some d
  bytes : ∃ pad, s.c.drop s.rp = toks.flatMap encode ++ pad

/-- The decoder reads the first of the tokens, and is then at the next one. -/
theorem replaying_step {d : List Byte} {i : Instr} {is : List Instr} {s : State} (h : Replaying d (i :: is) s) :
    ∃ m, step s = .next { s with out := m, rp := s.rp + i.size } ∧
      Replaying d is { s with out := m, rp := s.rp + i.size } := by
  obtain ⟨hwf, h0⟩ := h.tokens i List.mem_cons_self
  obtain ⟨pad, hbytes⟩ := h.bytes
  have hexpands := h.expands
  rw [expandAll] at hexpands
  cases hm : expand i s.out with
  | none => rw [hm] at hexpands; cases hexpands
  | some m =>
    rw [hm] at hexpands
    have hmd : m.length ≤ d.length := length_le_of_expandAll hexpands
    have hout : s.out.length < s.orig.toNat := by
      obtain ⟨ext, rfl, hext⟩ := expand_append hm
      have := produced_pos hwf h0
      rw [List.length_append] at hmd
      rw [h.orig]
      omega
    rw [List.flatMap_cons, List.append_assoc] at hbytes
    have hsize : s.rp + i.size ≤ s.endp := by
      have := congrArg List.length hbytes
      rw [List.length_drop, List.length_append, length_encode hwf] at this
      have := size_pos i
      rw [h.endp]
      omega
    have hrp : s.rp < s.endp := Nat.lt_of_lt_of_le (Nat.lt_add_of_pos_right (size_pos i)) hsize
    have hdec : decode ((s.c.drop s.rp).take (s.endp - s.rp)) = .ok (i, is.flatMap encode ++ pad) := by
      rw [h.endp, List.take_of_length_le (by rw [List.length_drop]), hbytes]
      exact decodeAfterEncode i _ hwf
    refine ⟨m, ?_, ?_⟩
    · rw [step_decompressing h.port h.mode, decodeStep_of_token (fetch_token hout hrp h.endp.le hdec)]
      exact exec_of_expand hsize hm (fits_mono hmd h.room)
    · refine ⟨h.port, h.mode, h.orig, h.endp, h.room, fun j hj => h.tokens j (List.mem_cons_of_mem _ hj), hexpands,
        pad, ?_⟩
      dsimp only
      rw [← List.drop_drop, hbytes, ← length_encode hwf, List.drop_left]

/-- The decoder runs through the tokens and stops with exactly `d`, whatever follows them. -/
theorem replaying_ends {d : List Byte} (toks : List Instr) : ∀ s : State, Replaying d toks s →
    EndsIn s (ended .ok d s) := by
  induction toks with
  | nil =>
    intro s h
    obtain rfl : s.out = d := Option.some.inj h.expands
    have hstop := stopRule s h.port h.mode h.orig.le
    rw [h.orig, List.take_length, completed_eq_ended h.port] at hstop
    exact endsIn_of_step_ended hstop
  | cons i is ih =>
    intro s h
    obtain ⟨m, hstep, h'⟩ := replaying_step h
    exact (endsIn_step hstep).2 (ih _ h')

theorem payloadEnd_container (k : Config) {n : Nat} {tok : Memory} (h : (padded tok).length < 2 ^ 32) :
    payloadEnd k (container n tok).length (BitVec.ofNat 32 (padded tok).length) = (container n tok).length := by
  unfold payloadEnd
  split
  · rfl
  · rw [BitVec.toNat_ofNat, Nat.mod_eq_of_lt h, length_container, padded_length, headerSize]
    omega

/-- A DECOMPRESS of the container of a stream that stands for `d` is at the stream's first token. -/
theorem replaying_start {d : List Byte} {toks : List Instr} {tok : Memory} {s : State} (hlen : d.length < 2 ^ 32)
    (hsmall : (padded tok).length < 2 ^ 32) (hroom : fits s.cfg.outCapacity d.length = true)
    (htoks : ∀ i ∈ toks, i.wellFormed = true ∧ i ≠ .lit0) (htok : tok = toks.flatMap encode)
    (hexp : expandAll toks [] = some d) :
    Replaying d toks (decompressStart (container d.length tok) (BitVec.ofNat 32 d.length)
      (BitVec.ofNat 32 (padded tok).length) s) := by
  refine ⟨rfl, rfl, ?_, payloadEnd_container s.cfg hsmall, hroom, htoks, hexp,
    List.replicate (padCount tok.length) 0x00#8, ?_⟩
  · exact (BitVec.toNat_ofNat _ _).trans (Nat.mod_eq_of_lt hlen)
  · change (header _ _ ++ padded tok).drop 16 = _
    rw [List.drop_left' (header_length _ _), padded, ← htok]

/-- The token stream stands for the dictionary at every decision of a COMPRESS. -/
theorem tokReplays_kept (d : List Byte) : KeptByEngine d TokReplays := by
  intro u t hu hpos h htok
  obtain ⟨i, n, hwf, h0, -, -, hexp, rfl⟩ := engineStep_decision hu.inv hpos h
  exact tokReplays_afterDecision htok hwf h0 hexp

/-- Settles O57: at the end of a COMPRESS the stream stands for the whole input, and the decoder replays it. -/
theorem roundTrip : Obligations.RoundTrip := by
  intro s s' d r hm hm' hroom h
  obtain ⟨hlen, -⟩ := accepted_of_returns_ok hm h
  obtain ⟨u, hu, ⟨toks, htoks, htok, hexp⟩, hend, hsmall, rfl⟩ :=
    container_of_returns_ok hm h (tokReplays_kept d) ⟨[], nofun, rfl, rfl⟩
  have hdict : u.dict = d := by
    obtain ⟨-, -, -, hdict, -⟩ := hu.inv
    rw [hdict, hu.inp, hend, List.take_length]
  rw [hdict] at hexp
  obtain ⟨o, p, ho, hp, hstep⟩ :=
    step_decompress (s := { s' with port := some (.decompress (container d.length u.tok)) }) hm' rfl
      (by rw [length_container]; omega) (take_header _ _ _)
  obtain rfl : BitVec.ofNat 32 d.length = o := Option.some.inj ((le32_header_orig _ _ _).symm.trans ho)
  obtain rfl : BitVec.ofNat 32 (padded u.tok).length = p := Option.some.inj ((le32_header_psize _ _ _).symm.trans hp)
  exact returns_of_endsIn ((endsIn_step hstep).2
    (replaying_ends toks _ (replaying_start hlen hsmall hroom htoks htok hexp)))

end Sys2Proof.Machine

/-! PROOFS. What a command returns does not depend on earlier commands (70_reset section 5): two machines with the
same parameters that differ in nothing the running command uses go on to differ in nothing it uses, and end with one
record. -/

namespace Sys2Proof.Machine

/-! ### COMPRESS uses no variable of the decoder -/

/-- The machine `s` with the record and the decoder's variables of `a`. -/
def withDecoderOf (a s : State) : State :=
  { s with status := a.status, result := a.result, c := a.c, rp := a.rp, out := a.out, orig := a.orig,
           psize := a.psize, endp := a.endp }

theorem appendDictRun_withDecoderOf (a : State) (v : Byte) (r : Nat) : ∀ s : State,
    appendDictRun v r (withDecoderOf a s) = withDecoderOf a (appendDictRun v r s) := by
  induction r with
  | zero => exact fun _ => rfl
  | succ r ih => exact fun s => ih (appendDict v s)

theorem appendDictCopy_withDecoderOf (a : State) {n : Nat} : ∀ {src : Nat} {s t : State},
    appendDictCopy n src s = some t → appendDictCopy n src (withDecoderOf a s) = some (withDecoderOf a t) := by
  induction n with
  | zero => intro src s t h; cases h; rfl
  | succ n ih =>
    intro src s t h
    have hdict : (withDecoderOf a s).dict = s.dict := rfl
    rw [appendDictCopy] at h ⊢
    rw [hdict]
    cases hr : Memory.read s.dict src with
    | none => rw [hr] at h; cases h
    | some b => rw [hr] at h; exact ih h

theorem qualifies_withDecoderOf (a s : State) (q : Nat) : qualifies (withDecoderOf a s) q = qualifies s q :=
  qualifies_congr rfl rfl rfl q

theorem growLoop_withDecoderOf (a : State) (fuel : Nat) : ∀ (len : Nat) (s : State),
    growLoop fuel len (withDecoderOf a s) = ((growLoop fuel len s).1, withDecoderOf a (growLoop fuel len s).2) := by
  induction fuel with
  | zero => exact fun _ _ => rfl
  | succ fuel ih =>
    intro len s
    have hinp : (withDecoderOf a s).inp = s.inp := rfl
    have hpos : (withDecoderOf a s).pos = s.pos := rfl
    rw [growLoop, growLoop, hinp, hpos, qualifies_withDecoderOf]
    cases Memory.read s.inp (s.pos + len) with
    | none => rfl
    | some b =>
      dsimp only
      split
      · rfl
      · exact ih (len + 1) (appendDict b s)

theorem emit_withDecoderOf (a : State) {i : Instr} {s t : State} (h : emit i s = .next t) :
    emit i (withDecoderOf a s) = .next (withDecoderOf a t) := by
  obtain ⟨hwf, h0, g⟩ | g := emit_cases i s <;> rw [g] at h <;> cases h
  exact emit_of_wellFormed _ hwf h0

theorem decideRle_withDecoderOf (a : State) {r : Nat} {v : Byte} {s t : State} (h : decideRle r v s = .next t) :
    decideRle r v (withDecoderOf a s) = .next (withDecoderOf a t) := by
  obtain ⟨s1, he, h⟩ := onNext_eq_next.1 h
  cases h
  rw [decideRle, emit_withDecoderOf a he, onNext_next, appendDictRun_withDecoderOf]
  rfl

theorem decideRef_withDecoderOf (a : State) {l o : Nat} {s t : State} (h : decideRef l o s = .next t) :
    decideRef l o (withDecoderOf a s) = .next (withDecoderOf a t) := by
  obtain ⟨s1, he, h⟩ := onNext_eq_next.1 h
  have hpos : (withDecoderOf a s1).pos = s1.pos := rfl
  rw [decideRef, emit_withDecoderOf a he, onNext_next, hpos]
  cases hc : appendDictCopy l (s1.pos - o) s1 with
  | none => rw [hc] at h; cases h
  | some s2 =>
    rw [hc] at h
    cases h
    rw [appendDictCopy_withDecoderOf a hc]
    rfl

theorem decideLit_withDecoderOf (a : State) {v : Byte} {s t : State} (h : decideLit v s = .next t) :
    decideLit v (withDecoderOf a s) = .next (withDecoderOf a t) := by
  obtain ⟨s1, he, h⟩ := onNext_eq_next.1 h
  cases h
  have hgrow : growLiteral v (withDecoderOf a s) = ((growLiteral v s).1, withDecoderOf a (growLiteral v s).2) :=
    growLoop_withDecoderOf a (maxLit - 1) 1 (appendDict v s)
  rw [decideLit, hgrow]
  exact onNext_eq_next.2 ⟨_, emit_withDecoderOf a he, rfl⟩

/-- An engine step makes the same decision whatever the decoder's variables hold, and leaves them as they are. -/
theorem engineStep_withDecoderOf (a : State) {s t : State} (h : engineStep s = .next t) :
    engineStep (withDecoderOf a s) = .next (withDecoderOf a t) := by
  have hinp : (withDecoderOf a s).inp = s.inp := rfl
  have hpos : (withDecoderOf a s).pos = s.pos := rfl
  have hbest : bestRef (withDecoderOf a s) s.pos = bestRef s s.pos := bestRef_congr rfl rfl rfl _
  rw [engineStep] at h ⊢
  rw [hinp, hpos, hbest]
  cases hr : Memory.read s.inp s.pos with
  | none => rw [hr] at h; cases h
  | some v =>
    rw [hr] at h
    dsimp only at h ⊢
    split at h
    · next hrle => rw [if_pos hrle]; exact decideRle_withDecoderOf a h
    · next hrle =>
      rw [if_neg hrle]
      split at h
      · next href => rw [if_pos href]; exact decideRef_withDecoderOf a h
      · next href => rw [if_neg href]; exact decideLit_withDecoderOf a h

/-! ### DECOMPRESS uses no variable of the engine -/

/-- The machine `s` with the record and the engine's variables of `a`. -/
def withEngineOf (a s : State) : State :=
  { s with status := a.status, result := a.result, inp := a.inp, pos := a.pos, dict := a.dict, idx := a.idx,
           tok := a.tok }

/-! ### Two machines with the same parameters -/

/-- Two machines at rest with one record; or in a COMPRESS, the same but for the record and the decoder's variables; or
in a DECOMPRESS, the same but for the record and the engine's variables. -/
inductive Agree : State → State → Prop
  | rest {s s' : State} (hp : s.port = none) (hm : s.mode = .idle) (hp' : s'.port = none) (hm' : s'.mode = .idle)
      (hrecord : s.record = s'.record) : Agree s s'
  | engine {s : State} (a : State) (hp : s.port = none) (hm : s.mode = .compressing) : Agree s (withDecoderOf a s)
  | decoder {s : State} (a : State) (hp : s.port = none) (hm : s.mode = .decompressing) : Agree s (withEngineOf a s)

theorem agree_ended (st : Status) (r : List Byte) (s s' : State) : Agree (ended st r s) (ended st r s') :=
  .rest rfl rfl rfl rfl rfl

/-- A token has the same effect whatever the engine's variables hold, and leaves them as they are; or it ends the
command with the same error. -/
theorem exec_agree (a : State) {i : Instr} {s t : State} (hp : s.port = none) (hm : s.mode = .decompressing)
    (h : exec i s = .next t) : ∃ t', exec i (withEngineOf a s) = .next t' ∧ Agree t t' := by
  obtain ⟨rfl, g⟩ | ⟨h0, hend, g⟩ | ⟨l, o, rfl, hend, ho, g⟩ | ⟨-, -, -, -, -, g⟩ | ⟨h0, hend, m, hexp, g⟩ :=
    exec_cases i s <;> rw [g] at h
  · cases h
    exact ⟨_, exec_lit0 _, .decoder a hp hm⟩
  · cases h
    exact ⟨_, exec_truncated h0 hend, .rest hp rfl hp rfl rfl⟩
  · cases h
    exact ⟨_, exec_invalidOffset hend ho, .rest hp rfl hp rfl rfl⟩
  · cases h
  · obtain ⟨hroom, rfl⟩ := putOut_eq_next.1 h
    exact ⟨_, (exec_eq_putOut (s := withEngineOf a s) h0 hend hexp).trans (putOut_of_fits hroom), .decoder a hp hm⟩

/-- Agreement is kept by every step. -/
theorem agree_step {s s' t : State} (h : Agree s s') (hs : step s = .next t) :
    ∃ t', step s' = .next t' ∧ Agree t t' := by
  cases h with
  | rest hp hm hp' hm' hrecord =>
    rw [step_idle hp hm] at hs
    cases hs
    exact ⟨s', step_idle hp' hm', .rest hp hm hp' hm' hrecord⟩
  | engine a hp hm =>
    rw [step_compressing hp hm] at hs
    rw [step_compressing (s := withDecoderOf a s) hp hm]
    by_cases hpos : s.pos < s.inp.length
    · rw [compressStep, if_pos hpos] at hs
      obtain ⟨i, bs, rfl⟩ := engineStep_next hs
      refine ⟨_, (if_pos hpos).trans (engineStep_withDecoderOf a hs), .engine a ?_ ?_⟩
      · simpa [afterDecision] using hp
      · simpa [afterDecision] using hm
    · have hfinish : compressStep (withDecoderOf a s) = finishCompress (withDecoderOf a s) := if_neg hpos
      rw [compressStep, if_neg hpos] at hs
      rw [hfinish]
      obtain ⟨hbig, g⟩ | ⟨hsmall, g⟩ := finishCompress_cases s <;> rw [g] at hs <;> cases hs
      · exact ⟨_, if_pos hbig, .rest hp rfl hp rfl rfl⟩
      · exact ⟨_, if_neg (Nat.not_le.2 hsmall), .rest hp rfl hp rfl rfl⟩
  | decoder a hp hm =>
    rw [step_decompressing hp hm] at hs
    rw [step_decompressing (s := withEngineOf a s) hp hm]
    obtain ⟨hf, g⟩ | ⟨e, hf, g⟩ | ⟨-, g⟩ | ⟨i, hf, g⟩ := decodeStep_cases s <;> rw [g] at hs
    · cases hs
      exact ⟨_, decodeStep_of_stop hf, .rest hp rfl hp rfl rfl⟩
    · cases hs
      exact ⟨_, decodeStep_of_raised hf, .rest hp rfl hp rfl rfl⟩
    · cases hs
    · rw [decodeStep_of_token (s := withEngineOf a s) hf]
      exact exec_agree a hp hm hs

/-- Agreement is kept by every run. -/
theorem agree_run (k : Nat) : ∀ {s s' t : State}, Agree s s' → run k s = .next t →
    ∃ t', run k s' = .next t' ∧ Agree t t' := by
  induction k with
  | zero => intro s s' t h hs; cases hs; exact ⟨s', rfl, h⟩
  | succ k ih =>
    intro s s' t h hs
    rw [run_succ, onNext_eq_next] at hs
    obtain ⟨u, hu, hs⟩ := hs
    obtain ⟨u', hu', h⟩ := agree_step h hu
    obtain ⟨t', hs', h⟩ := ih h hs
    exact ⟨t', by rw [run_succ, hu', onNext_next, hs'], h⟩

/-- Two machines that agree end with one record. -/
theorem agree_endsIn {s s' t : State} (h : Agree s s') (ht : EndsIn s t) :
    ∃ t', EndsIn s' t' ∧ t'.record = t.record := by
  obtain ⟨k, hrun, hm, hp⟩ := ht
  obtain ⟨t', hrun', h⟩ := agree_run k h hrun
  cases h with
  | rest _ _ hp' hm' hrecord => exact ⟨t', ⟨k, hrun', hm', hp'⟩, hrecord.symm⟩
  | engine a _ hm' => rw [hm] at hm'; cases hm'
  | decoder a _ hm' => rw [hm] at hm'; cases hm'

theorem compressStart_agree {s s' : State} (h : s.cfg = s'.cfg) (d : List Byte) :
    Agree (compressStart d s) (compressStart d s') := by
  have heq : compressStart d s' = withDecoderOf s' (compressStart d s) := by
    rw [compressStart, ← h]
    rfl
  rw [heq]
  exact .engine s' rfl rfl

theorem decompressStart_agree {s s' : State} (h : s.cfg = s'.cfg) (d : List Byte) (o p : U32) :
    Agree (decompressStart d o p s) (decompressStart d o p s') := by
  have heq : decompressStart d o p s' = withEngineOf s' (decompressStart d o p s) := by
    rw [decompressStart, ← h]
    rfl
  rw [heq]
  exact .decoder s' rfl rfl

/-- Two idle machines with the same parameters to which one command is presented agree after the step that meets it. -/
theorem accept_agree {s s' t : State} {cmd : Command} (hm : s.mode = .idle) (hm' : s'.mode = .idle)
    (hcfg : s.cfg = s'.cfg) (hp : s.port = some cmd) (hp' : s'.port = some cmd) (h : step s = .next t) :
    ∃ t', step s' = .next t' ∧ Agree t t' := by
  cases cmd with
  | compress d =>
    by_cases hlen : d.length < 2 ^ 32
    · cases hroom : fits s.cfg.inCapacity d.length with
      | true =>
        rw [step_compress hm hp hlen hroom] at h
        cases h
        exact ⟨_, step_compress hm' hp' hlen (hcfg ▸ hroom), compressStart_agree hcfg d⟩
      | false =>
        rw [step_compress_stuck hm hp hlen hroom] at h
        cases h
    · rw [Nat.not_lt] at hlen
      rw [step_compress_tooLarge hm hp hlen] at h
      cases h
      exact ⟨_, step_compress_tooLarge hm' hp' hlen, agree_ended _ _ s s'⟩
  | decompress d =>
    by_cases hlen : d.length < 16
    · rw [step_decompress_short hm hp hlen] at h
      cases h
      exact ⟨_, step_decompress_short hm' hp' hlen, agree_ended _ _ s s'⟩
    rw [Nat.not_lt] at hlen
    by_cases hmagic : d.take 8 = magic
    · obtain ⟨o, p, ho, hps, hstep⟩ := step_decompress hm hp hlen hmagic
      obtain ⟨o', p', ho', hps', hstep'⟩ := step_decompress hm' hp' hlen hmagic
      obtain rfl : o = o' := Option.some.inj (ho.symm.trans ho')
      obtain rfl : p = p' := Option.some.inj (hps.symm.trans hps')
      rw [hstep] at h
      cases h
      exact ⟨_, hstep', decompressStart_agree hcfg d o p⟩
    · rw [step_decompress_badMagic hm hp hlen hmagic] at h
      cases h
      exact ⟨_, step_decompress_badMagic hm' hp' hlen hmagic, agree_ended _ _ s s'⟩

/-- Settles O58: the step that meets the command brings the two machines into agreement. -/
theorem commandsAreIndependent : Obligations.CommandsAreIndependent := by
  intro s s' cmd st r hm hm' hcfg h
  obtain ⟨t, ht, hrec⟩ := (returns_iff cmd s st r).1 h
  obtain ⟨u, hstep, hu⟩ := exists_step_of_endsIn ht rfl
  obtain ⟨u', hstep', hagree⟩ := accept_agree (s := { s with port := some cmd }) (s' := { s' with port := some cmd })
    hm hm' hcfg rfl rfl hstep
  obtain ⟨t', ht', hrec'⟩ := agree_endsIn hagree hu
  exact (returns_iff cmd s' st r).2 ⟨t', (endsIn_step hstep').2 ht', hrec'.trans hrec⟩

end Sys2Proof.Machine
